-- ==== Sys2Proof/Word.lean ====
section
/-! DEFINITION. The bit-vector types of the block (00_scope.md R8, R9). -/

namespace Sys2Proof

/-- One byte of host memory (20_memory.md R32). -/
abbrev Byte := BitVec 8

/-- A 32-bit value: a command word (30_encoding.md R46), the registers C and R (10_state.md R16). -/
abbrev Word := BitVec 32

/-- An address or a length. ADDR and LEN are XLEN bits wide (10_state.md R16); at XLEN = 32 the upper half is zero,
an invariant of the model. DESIGN CHOICE (log entry 7), safe. -/
abbrev Addr := BitVec 64

end Sys2Proof
end

