-- ==== Sys2Proof/Config.lean ====
section
/-! DEFINITION. The launch parameters of the block (00_scope.md R6, 10_state.md R26) and the free values. -/

namespace Sys2Proof

/-- `XLEN` (00_scope.md R6). -/
inductive Xlen where
  | x32
  | x64
  deriving DecidableEq, Repr

/-- XLEN as a number of bits. -/
def Xlen.bits : Xlen → Nat
  | .x32 => 32
  | .x64 => 64

/-- The configuration setting `ENV` (43_dispatch.md R82). -/
inductive Env where
  | absent
  | sw
  | hw
  | other
  deriving DecidableEq, Repr

/-- The two engines of the block (00_scope.md R1). -/
inductive Engine where
  | hw
  | sw
  deriving DecidableEq, Repr, Inhabited

/-- A chunk width of the hardware engine: 1, 2, 4 or 8 bytes (41_hw_engine.md R67). -/
inductive ChunkWidth where
  | w1
  | w2
  | w4
  | w8
  deriving DecidableEq, Repr

/-- The number of bytes of a chunk. -/
def ChunkWidth.bytes : ChunkWidth → Nat
  | .w1 => 1
  | .w2 => 2
  | .w4 => 4
  | .w8 => 8

/-- The type of `HWFOLD(w, c, a, bs)` (41_hw_engine.md R67). No field of State has this type. -/
abbrev HwFold := ChunkWidth → Word → Addr → List Byte → Word

/-- One way in which a stated CPU instruction deviates from the software fold: a chunk of this width has `mask` xored into
its result, always or only when the chunk's address is no multiple of the width (95_test_vectors.md section 2.8, B1 to B3). -/
structure HwDefect where
  width : ChunkWidth
  mask : Word
  misalignedOnly : Bool
  deriving DecidableEq, Repr

/-- `HWFOLD` as plain data. `free n` is a CPU instruction of which nothing is known but its type (R67); `stated ds` is
one that folds as the software engine does but for the listed defects, so `stated []` conforms (R68).
DESIGN CHOICE (log entry 3), safe: a claim about every State holds of the unconstrained instruction. -/
inductive HwUnit where
  | free (tag : Nat)
  | stated (defects : List HwDefect)
  deriving DecidableEq, Repr

/-- The inputs of a run, constant for the run (10_state.md R26). N_PORTS is the number of ports in State, MEM and READABLE
are State's memory, STREAM[p] stands in port p. -/
structure Inputs where
  xlen : Xlen
  hwPath : Bool
  cap : Bool
  env : Env
  hw : HwUnit
  scPatternLen : Nat
  scPatternBase : Addr
  scTvBase : Addr
  deriving DecidableEq, Repr

/-- The configuration of 95_test_vectors.md's preamble with an unconstrained CPU instruction.
DESIGN CHOICE (log entry 5): the spec leaves these inputs open; unsafe for a claim about State.reset alone. -/
def Inputs.default : Inputs where
  xlen := .x64
  hwPath := true
  cap := true
  env := .absent
  hw := .free 0
  scPatternLen := 512
  scPatternBase := 0x2000
  scTvBase := 0x3000

/-- What an unconstrained CPU instruction leaves in its accumulator (41_hw_engine.md R67; 93_implementation_defined.md U13).
A free value, log entry 3: it has no body, so no proof can see what it is. Safe. -/
opaque Config.hwFold (tag : Nat) (w : ChunkWidth) (c : Word) (a : Addr) (bs : List Byte) : Word

/-- Which enabled port takes the step numbered `tick` when the tape `sched` is empty (10_state.md R13;
93_implementation_defined.md U15). A free value, log entry 1. Safe. -/
opaque Config.schedule (tick : Nat) : Nat

/-- Which engine a stale CSUM runs when the tape `draws` is empty: `draw({HW, SW})` of 43_dispatch.md R88
(93_implementation_defined.md U14). A free value, log entry 2. Safe. -/
opaque Config.staleDraw (tick : Nat) : Engine

end Sys2Proof
end

