-- ==== Sys2Proof/Syntax.lean ====
section
/-! DEFINITION. The commands of the block: one constructor per row of spec/opcode_table.json (30_encoding.md R51). -/

namespace Sys2Proof

/-- The 19 commands. An immediate of format A is held as 64 bits (30_encoding.md R50), that of format C as 32 (R49). -/
inductive Instr where
  | lda (imm : Addr)
  | ldl (imm : Addr)
  | ldc (imm : Word)
  | getc
  | crcInit
  | swStep
  | swByte
  | swCrc
  | crcFinal
  | hwU8
  | hwU16
  | hwU32
  | hwU64
  | hwCrc
  | hwavail
  | csum
  | name
  | forcesw
  | selfcheck
  deriving DecidableEq, Repr

/-- The three formats of 30_encoding.md R47. -/
inductive Format where
  | n
  | c
  | a
  deriving DecidableEq, Repr

/-- The length of a format in words, k of 30_encoding.md R47. -/
def Format.words : Format → Nat
  | .n => 1
  | .c => 2
  | .a => 3

/-- The format of each command (30_encoding.md R47, R51). -/
def Instr.format : Instr → Format
  | .lda _ => .a
  | .ldl _ => .a
  | .ldc _ => .c
  | .getc => .n
  | .crcInit => .n
  | .swStep => .n
  | .swByte => .n
  | .swCrc => .n
  | .crcFinal => .n
  | .hwU8 => .n
  | .hwU16 => .n
  | .hwU32 => .n
  | .hwU64 => .n
  | .hwCrc => .n
  | .hwavail => .n
  | .csum => .n
  | .name => .n
  | .forcesw => .n
  | .selfcheck => .n

end Sys2Proof
end

