-- ==== Sys2Proof/WellFormed.lean ====
section
/-! DEFINITION. Which commands the block's configuration admits (30_encoding.md R50, R53). -/

namespace Sys2Proof

/-- An immediate that fits XLEN bits: at XLEN = 32 word 2 must be 0 (30_encoding.md R50). -/
def fitsXlen (x : Xlen) (v : Addr) : Bool := decide (v.toNat < 2 ^ x.bits)

/-- The commands that spell a command under these inputs. HW.U8 to HW.U64 need HW_PATH, and HW.U64 needs XLEN = 64
(30_encoding.md R53); HW.CRC is legal in every configuration. -/
def Instr.wellFormed (inp : Inputs) : Instr → Bool
  | .lda imm => fitsXlen inp.xlen imm
  | .ldl imm => fitsXlen inp.xlen imm
  | .ldc _ => true
  | .getc => true
  | .crcInit => true
  | .swStep => true
  | .swByte => true
  | .swCrc => true
  | .crcFinal => true
  | .hwU8 => inp.hwPath
  | .hwU16 => inp.hwPath
  | .hwU32 => inp.hwPath
  | .hwU64 => inp.hwPath && inp.xlen == .x64
  | .hwCrc => true
  | .hwavail => true
  | .csum => true
  | .name => true
  | .forcesw => true
  | .selfcheck => true

end Sys2Proof
end

