-- ==== Sys2Proof/Decode.lean ====
section
/-! DEFINITION. Decoding and encoding of commands (30_encoding.md R46 to R54). -/

namespace Sys2Proof

/-- Why the words at PC spell no command; each of them raises ILLEGAL_CMD (30_encoding.md R52, R53; 60_exceptions.md R105). -/
inductive DecodeError where
  /-- No word is left: never met by a fetch, which needs PC < |STREAM[p]| (R45). -/
  | noWord
  /-- RSV ≠ 0 (R46). -/
  | reservedBits
  /-- An OP that R51 does not list. -/
  | reservedOpcode
  /-- Fewer words left than the format needs (R48). -/
  | truncated
  /-- A format A command at XLEN = 32 with a nonzero word 2 (R50). -/
  | wideImmediate
  /-- HW.U64 at XLEN = 32 (R53). -/
  | noWideChunk
  /-- HW.U8 to HW.U64 with HW_PATH = false (R53). -/
  | noHwPath
  deriving DecidableEq, Repr

/-- OP, bits [7:0] of word 0 (30_encoding.md R46). -/
def opField (w : Word) : Byte := w.extractLsb' 0 8

/-- RSV, bits [31:8] of word 0 (30_encoding.md R46). -/
def rsvField (w : Word) : BitVec 24 := w.extractLsb' 8 24

/-- The immediate of a format A command from the extension words (30_encoding.md R48, R50). -/
def immA (inp : Inputs) : List Word → Except DecodeError Addr
  | lo :: hi :: _ =>
    match inp.xlen with
    | .x64 => .ok (hi ++ lo)
    | .x32 => if hi = 0 then .ok (lo.setWidth 64) else .error .wideImmediate
  | _ => .error .truncated

/-- The immediate of a format C command from the extension words (30_encoding.md R48, R49). -/
def immC : List Word → Except DecodeError Word
  | imm :: _ => .ok imm
  | [] => .error .truncated

/-- A chunk command is legal only where the CPU has the CRC instruction, and the 8-byte one only at XLEN = 64
(30_encoding.md R53). -/
def chunkDecode (inp : Inputs) (w : ChunkWidth) (i : Instr) : Except DecodeError Instr :=
  if inp.hwPath = false then .error .noHwPath
  else if w = .w8 ∧ inp.xlen = .x32 then .error .noWideChunk
  else .ok i

/-- The opcode map of 30_encoding.md R51; every other OP is reserved (R52). -/
def decodeOp (inp : Inputs) (op : Nat) (ext : List Word) : Except DecodeError Instr :=
  match op with
  | 0x01 => (immA inp ext).map .lda
  | 0x02 => (immA inp ext).map .ldl
  | 0x03 => (immC ext).map .ldc
  | 0x04 => .ok .getc
  | 0x10 => .ok .crcInit
  | 0x11 => .ok .swStep
  | 0x12 => .ok .swByte
  | 0x13 => .ok .swCrc
  | 0x14 => .ok .crcFinal
  | 0x20 => chunkDecode inp .w1 .hwU8
  | 0x21 => chunkDecode inp .w2 .hwU16
  | 0x22 => chunkDecode inp .w4 .hwU32
  | 0x23 => chunkDecode inp .w8 .hwU64
  | 0x24 => .ok .hwCrc
  | 0x30 => .ok .hwavail
  | 0x40 => .ok .csum
  | 0x41 => .ok .name
  | 0x42 => .ok .forcesw
  | 0x50 => .ok .selfcheck
  | _ => .error .reservedOpcode

/-- The command spelled by the words from PC to the end of the stream (30_encoding.md R45 to R53). -/
def decode (inp : Inputs) : List Word → Except DecodeError Instr
  | [] => .error .noWord
  | w0 :: ext => if rsvField w0 = 0 then decodeOp inp (opField w0).toNat ext else .error .reservedBits

/-- OP of each command (30_encoding.md R51). -/
def Instr.opcode : Instr → Byte
  | .lda _ => 0x01
  | .ldl _ => 0x02
  | .ldc _ => 0x03
  | .getc => 0x04
  | .crcInit => 0x10
  | .swStep => 0x11
  | .swByte => 0x12
  | .swCrc => 0x13
  | .crcFinal => 0x14
  | .hwU8 => 0x20
  | .hwU16 => 0x21
  | .hwU32 => 0x22
  | .hwU64 => 0x23
  | .hwCrc => 0x24
  | .hwavail => 0x30
  | .csum => 0x40
  | .name => 0x41
  | .forcesw => 0x42
  | .selfcheck => 0x50

/-- Word 0: OP zero-extended, so RSV is 0 (30_encoding.md R46, R51). -/
def Instr.word0 (i : Instr) : Word := i.opcode.setWidth 32

/-- The extension words (30_encoding.md R47): IMM_LO then IMM_HI for format A, IMM32 for format C. -/
def Instr.extensionWords : Instr → List Word
  | .lda imm => [imm.extractLsb' 0 32, imm.extractLsb' 32 32]
  | .ldl imm => [imm.extractLsb' 0 32, imm.extractLsb' 32 32]
  | .ldc imm => [imm]
  | .getc => []
  | .crcInit => []
  | .swStep => []
  | .swByte => []
  | .swCrc => []
  | .crcFinal => []
  | .hwU8 => []
  | .hwU16 => []
  | .hwU32 => []
  | .hwU64 => []
  | .hwCrc => []
  | .hwavail => []
  | .csum => []
  | .name => []
  | .forcesw => []
  | .selfcheck => []

/-- The words of a command in stream order (30_encoding.md R47, R55). -/
def encode (i : Instr) : List Word := i.word0 :: i.extensionWords

/-- The words of a program in stream order (30_encoding.md R55). -/
def assemble : List Instr → List Word
  | [] => []
  | i :: rest => encode i ++ assemble rest

/-- The pseudo-instruction `BUF a, n` (30_encoding.md R56). -/
def pseudoBuf (a n : Addr) : List Instr := [.lda a, .ldl n]

/-- The pseudo-instruction `CRCSTR a, n` (30_encoding.md R56). -/
def pseudoCrcStr (a n : Addr) : List Instr := [.lda a, .ldl n, .csum]

/-- The pseudo-instruction `HWRUN` for a buffer of n bytes at XLEN = 64 (30_encoding.md R56). -/
def pseudoHwRun (n : Nat) : List Instr :=
  [.crcInit] ++ List.replicate (n / 8) .hwU64
    ++ (if n % 8 ≥ 4 then [.hwU32] else [])
    ++ (if n % 4 ≥ 2 then [.hwU16] else [])
    ++ (if n % 2 = 1 then [.hwU8] else [])
    ++ [.crcFinal]

/-- The three words of the longest command from a number whose bit 0 is bit 0 of word 0. -/
def wordsOfNat (w : Nat) : List Word :=
  [BitVec.ofNat 32 w, BitVec.ofNat 32 (w / 2 ^ 32), BitVec.ofNat 32 (w / 2 ^ 64)]

/-- What the decoder reads from a command whose low `nbits` bits are those of `w` and whose other bits are 0, under
the default inputs (XLEN = 64, HW_PATH = true). Streams are lists of 32-bit words, so no byte order arises
(20_memory.md R43). -/
def decodeTableWord (nbits w : Nat) : Option Instr :=
  (decode Inputs.default (wordsOfNat (w % 2 ^ nbits))).toOption

end Sys2Proof
end

