-- ==== Sys2Proof/Machine/State.lean ====
section
/-! DEFINITION. The state of the block (10_state.md) as plain data, and reset (10_state.md R30, 70_reset_and_hazards.md R122). -/

namespace Sys2Proof.Machine

/-- PH, a port's phase within a multi-step command (10_state.md R18). -/
inductive Phase where
  | ready
  | forceSet
  | scMatch
  | scMismatch
  deriving DecidableEq, Repr

/-- SCS, the status of the port's last completed SELFCHECK (10_state.md R20). -/
inductive CheckStatus where
  | none
  | success
  | nothingToCheck
  | failure
  deriving DecidableEq, Repr

/-- ERR; codes 6 to 15 are never held (60_exceptions.md R104). -/
inductive ErrCode where
  | none
  | illegalCmd
  | hwUnsupported
  | uninitReg
  | lenUnderflow
  | memFault
  deriving DecidableEq, Repr

/-- SEL, the Implementation Selector; the value 3 is never held (10_state.md R23). -/
inductive Selector where
  | undecided
  | hw
  | sw
  deriving DecidableEq, Repr

/-- INIT, the once-guard; the value 3 is never held (10_state.md R25). -/
inductive InitGuard where
  | none
  | busy
  | done
  deriving DecidableEq, Repr

/-- The state of one port (10_state.md R14 to R21) and its command stream, an input (R26). A register is `none` while it is
unwritten: that is the spec's own reset value and its own state of a register (R15, R30; log entry 8). -/
structure Port where
  pc : BitVec 32
  addr : Option Addr
  len : Option Addr
  c : Option Word
  r : Option Word
  ph : Phase
  stale : Bool
  scs : CheckStatus
  faulted : Bool
  err : ErrCode
  faultPc : BitVec 32
  faultCmd : Word
  faultAddr : Option Addr
  stream : List Word
  deriving DecidableEq, Repr

/-- The whole block: the ports, the shared dispatch state (10_state.md R23 to R25), the inputs (R26) and host memory
(20_memory.md R32), and four fields of the model's own that say whose step it is.
DESIGN CHOICE (log entries 1 and 2), safe: `sched` and `draws` are the choices the environment has already made, `tick`
numbers the steps for the opaque choices taken when a tape is empty, `cur` is the port whose step is being executed. -/
structure State where
  ports : List Port
  sel : Selector
  force : Bool
  init : InitGuard
  initOwner : BitVec 8
  inp : Inputs
  mem : List Host.Cell
  cur : Nat
  sched : List Nat
  draws : List Engine
  tick : Nat
  deriving DecidableEq, Repr

/-- Why a step of the model has no next state. A fault of a PORT (60_exceptions.md R104) is none of these: taking it is a
next state (R111). -/
inductive Fault where
  /-- Raised by `step` in an end state: every port has reached the end of its stream, is READY and is not faulted
  (70_reset_and_hazards.md R125). Safe: the run is over and there is no step to take. -/
  | runEnded
  /-- Raised by `step` where no port has an enabled step and the run has not ended, as when every port that has commands left
  is faulted (60_exceptions.md R111, R112; 93_implementation_defined.md U7: stuck until reset). Safe. -/
  | stuck
  /-- Raised by a dispatch-triggering command asked to execute at a port that must hold (43_dispatch.md R86;
  93_implementation_defined.md U8). `step` never schedules such a port. Safe. -/
  | held
  /-- Raised by FORCESW in a phase of SELFCHECK and by SELFCHECK in the phase of FORCESW: no rule pairs them
  (10_state.md R18), and no run reaches them. Safe. -/
  | wrongPhase
  deriving DecidableEq, Repr

/-- Why an instruction has no meaning. -/
inductive Refusal where
  /-- Raised by an arm of `exec` whose instruction is not modelled yet; no arm is. Safe. -/
  | notModelled (mnemonic : String)
  deriving DecidableEq, Repr

/-- A port right after reset, with its command stream (10_state.md R30). -/
def Port.reset (stream : List Word) : Port where
  pc := 0
  addr := none
  len := none
  c := none
  r := none
  ph := .ready
  stale := false
  scs := .none
  faulted := false
  err := .none
  faultPc := 0
  faultCmd := 0
  faultAddr := none
  stream := stream

/-- Reset of a block launched with these inputs, this host memory and one stream a port
(10_state.md R30, 70_reset_and_hazards.md R122 to R124). -/
def State.launch (inp : Inputs) (mem : List Host.Cell) (streams : List (List Word)) : State where
  ports := streams.map Port.reset
  sel := .undecided
  force := false
  init := .none
  initOwner := 0
  inp := inp
  mem := mem
  cur := 0
  sched := []
  draws := []
  tick := 0

/-- The block right after reset, launched with the default inputs, no readable memory and one port with an empty stream.
DESIGN CHOICE (log entry 5) for the launch parameters, which the spec leaves open. -/
def State.reset : State := State.launch Inputs.default [] [[]]

end Sys2Proof.Machine
end

