-- ==== Sys2Proof/Machine/Ops.lean ====
section
/-! DEFINITION. The named operations over memory, ports and the shared dispatch state: the host memory and MemRead
(20_memory.md R33), the executing port, fault entry (60_exceptions.md R111), and the claim and decide steps
(43_dispatch.md R84, R85). -/

namespace Sys2Proof.Machine

/-! ### Host memory -/

/-- MEM and READABLE together: a listed address is readable and holds the byte, an unlisted one is not readable. The cell
lists rise strictly in address. DESIGN CHOICE (log entry 4), safe: the byte at an unreadable address is never observed. -/
abbrev Memory := List Host.Cell

/-- The byte listed for an address. -/
def Memory.lookup : Memory → Nat → Option Byte
  | [], _ => none
  | (k, b) :: rest, a => if k = a then some b else Memory.lookup rest a

/-- `MEM(a)` where `READABLE(a)`, and `none` elsewhere; `READABLE(0)` is false (20_memory.md R33, R39). -/
def Memory.get (m : Memory) (a : Nat) : Option Byte := if a = 0 then none else Memory.lookup m a

/-- Puts one cell into a rising list, in the place of the cell at its address if there is one. -/
def Memory.insert : Memory → Nat → Byte → Memory
  | [], a, b => [(a, b)]
  | (k, v) :: rest, a, b =>
    if a < k then (a, b) :: (k, v) :: rest
    else if a = k then (a, b) :: rest
    else (k, v) :: Memory.insert rest a b

/-- The HOST places a readable byte before a run (70_reset_and_hazards.md R124). No command of the block calls it
(20_memory.md R34). Address 0 and addresses of 64 bits or more cannot be made readable. -/
def Memory.place (m : Memory) (a : Nat) (b : Byte) : Memory :=
  if a = 0 ∨ 2 ^ 64 ≤ a then m else Memory.insert m a b

/-- The HOST places consecutive bytes from an address on. -/
def Memory.placeBytes (m : Memory) (a : Nat) : List Byte → Memory
  | [] => m
  | b :: rest => Memory.placeBytes (Memory.place m a b) (a + 1) rest

/-- The addresses rise strictly from above `low`, and all fit in 64 bits. -/
def Memory.risesFrom : Nat → Memory → Bool
  | _, [] => true
  | low, (k, _) :: rest => decide (low < k) && decide (k < 2 ^ 64) && Memory.risesFrom k rest

/-- The canonical form: addresses strictly rising, none of them 0, all of 64 bits. -/
def Memory.wf (m : Memory) : Bool := Memory.risesFrom 0 m

/-- The n bytes from `a` on in ascending order, or the lowest unreadable address (20_memory.md R33). -/
def Memory.readBytes (m : Memory) (a : Nat) : Nat → Except Nat (List Byte)
  | 0 => .ok []
  | n + 1 =>
    match Memory.get m a with
    | none => .error a
    | some b =>
      match Memory.readBytes m (a + 1) n with
      | .error e => .error e
      | .ok bs => .ok (b :: bs)

/-! ### Port faults -/

/-- The faults a command can raise (60_exceptions.md R104), with the address MEM_FAULT records. -/
inductive Trap where
  | illegalCmd
  | hwUnsupported
  | uninitReg
  | lenUnderflow
  | memFault (a : Addr)
  deriving DecidableEq, Repr

/-- The code that fault entry writes to ERR (60_exceptions.md R104). -/
def Trap.code : Trap → ErrCode
  | .illegalCmd => .illegalCmd
  | .hwUnsupported => .hwUnsupported
  | .uninitReg => .uninitReg
  | .lenUnderflow => .lenUnderflow
  | .memFault _ => .memFault

/-- `MemRead(a, n)` (20_memory.md R33): no byte for n = 0, a fault at `a` for a range that would wrap, a fault at the
lowest unreadable address, else the bytes. -/
def Memory.read (m : Memory) (x : Xlen) (a : Addr) (n : Nat) : Except Trap (List Byte) :=
  if n = 0 then .ok []
  else if 2 ^ x.bits < a.toNat + n then .error (.memFault a)
  else
    match Memory.readBytes m a.toNat n with
    | .error e => .error (.memFault (BitVec.ofNat 64 e))
    | .ok bs => .ok bs

/-! ### The executing port -/

/-- `(a + n) mod 2^XLEN` (00_scope.md R8). -/
def addrAdd (x : Xlen) (a : Addr) (n : Nat) : Addr := BitVec.ofNat 64 ((a.toNat + n) % 2 ^ x.bits)

/-- The port whose step is being executed. `step` sets `cur` to a port that exists; for any other number the port read here
is one with an empty stream. -/
def State.me (s : State) : Port := s.ports.getD s.cur (Port.reset [])

/-- Replaces the executing port; every other port and all shared state stay. -/
def State.setMe (s : State) (p : Port) : State := { s with ports := s.ports.set s.cur p }

/-- Fault entry (60_exceptions.md R111): FAULTED, ERR, FAULT_PC, FAULT_CMD and, for MEM_FAULT only, FAULT_ADDR are written,
and nothing else. FAULT_CMD is word 0 of the command (90_conflicts.md C9). There is no return from a fault: only reset
clears it (R112). -/
def Port.raise (p : Port) (t : Trap) : Port :=
  { p with
    faulted := true
    err := t.code
    faultPc := p.pc
    faultCmd := p.stream.getD p.pc.toNat 0
    faultAddr := match t with
      | .memFault a => some a
      | .illegalCmd => p.faultAddr
      | .hwUnsupported => p.faultAddr
      | .uninitReg => p.faultAddr
      | .lenUnderflow => p.faultAddr }

/-- Fault entry at the executing port; no other port and no shared state changes (60_exceptions.md R114). -/
def State.raise (s : State) (t : Trap) : State := s.setMe (s.me.raise t)

/-- Ends a command: its next state, or the next state of taking its fault. -/
def State.settle (s : State) : Except Trap State → Host.Outcome State Fault Refusal
  | .ok t => .next t
  | .error e => .next (s.raise e)

/-- Raises `t` unless the condition holds. -/
def require (b : Bool) (t : Trap) : Except Trap Unit := if b then .ok () else .error t

/-! ### The shared dispatch state -/

/-- The step that switches SEL from HW to SW sets STALE at every port but the executing one (43_dispatch.md R89). -/
def State.stalePorts (s : State) : List Port :=
  if s.sel = .hw then s.ports.mapIdx (fun q p => if q = s.cur then p else { p with stale := true }) else s.ports

/-- Forces software: STALE at the others if SEL was HW, then SEL ← SW and FORCE ← 1 (43_dispatch.md R91,
44_self_check.md R98). -/
def State.forceSoftware (s : State) : State :=
  { s with ports := s.stalePorts, sel := .sw, force := true }

/-- The decision function of 43_dispatch.md R83. -/
def decideSel (force : Bool) (env : Env) (cap : Bool) : Selector :=
  if force = true ∨ env = .sw then .sw else if cap then .hw else .sw

/-- The claim step (43_dispatch.md R84). -/
def State.claim (s : State) : State := { s with init := .busy, initOwner := BitVec.ofNat 8 s.cur }

/-- The decide step (43_dispatch.md R85). -/
def State.decideStep (s : State) : State :=
  { s with
    sel := decideSel s.force s.inp.env s.inp.cap
    force := if s.inp.env = .sw then true else s.force
    init := .done
    initOwner := 0 }

/-- The initialization protocol before the body of a dispatch-triggering command (43_dispatch.md R84). A port that must hold
has no step (R86). -/
def State.protocol (s : State) (body : State → Host.Outcome State Fault Refusal) : Host.Outcome State Fault Refusal :=
  match s.init with
  | .done => body s
  | .none => .next s.claim
  | .busy => if s.initOwner.toNat = s.cur then .next s.decideStep else .fault .held

end Sys2Proof.Machine
end

