-- ==== Sys2Proof/Machine/Crc.lean ====
section
/-! DEFINITION. The two engines as functions (40_sw_engine.md R57 to R60, 41_hw_engine.md R67 to R72) and the self-check's
comparison (44_self_check.md R97). -/

namespace Sys2Proof.Machine

/-! ### The software engine -/

/-- The reflected Castagnoli polynomial (00_scope.md R2, 40_sw_engine.md R57). -/
def poly : Word := 0x82F63B78

/-- The bit step (40_sw_engine.md R57). -/
def crcStep (c : Word) : Word := (c >>> 1) ^^^ (if c.getLsbD 0 then poly else 0)

/-- The byte step: the byte enters the low 8 bits, then 8 bit steps (40_sw_engine.md R58). -/
def swByte (c : Word) (b : Byte) : Word := Nat.iterate crcStep 8 (c ^^^ b.setWidth 32)

/-- The fold over a byte list (40_sw_engine.md R59). -/
def swFold : Word → List Byte → Word
  | c, [] => c
  | c, b :: rest => swFold (swByte c b) rest

/-- The initial register value, all ones (00_scope.md R2). -/
def crcInitial : Word := 0xFFFFFFFF

/-- The software checksum (40_sw_engine.md R60). -/
def swCrc (bs : List Byte) : Word := ~~~(swFold crcInitial bs)

/-! ### The hardware engine -/

/-- What a stated defect xors into the result of a chunk at address `a`. -/
def defectMask (d : HwDefect) (w : ChunkWidth) (a : Addr) : Word :=
  if d.width = w ∧ (d.misalignedOnly = false ∨ a.toNat % w.bytes ≠ 0) then d.mask else 0

/-- `HWFOLD` of a described CPU instruction (41_hw_engine.md R67; 95_test_vectors.md section 2.8). -/
def hwFoldOf : HwUnit → HwFold
  | .free n => Config.hwFold n
  | .stated ds => fun w c a bs => ds.foldl (fun v d => v ^^^ defectMask d w a) (swFold c bs)

/-- The widest chunk, `W = XLEN / 8` bytes (00_scope.md R6, 41_hw_engine.md R70). -/
def widest : Xlen → ChunkWidth
  | .x32 => .w4
  | .x64 => .w8

/-- `narrower(W)` of 41_hw_engine.md R70. -/
def narrower : Xlen → List ChunkWidth
  | .x32 => [.w2, .w1]
  | .x64 => [.w4, .w2, .w1]

/-- The narrowing loop of the chunk plan: each width at most once (41_hw_engine.md R70). -/
def tailPlan : List ChunkWidth → Nat → List ChunkWidth
  | [], _ => []
  | w :: ws, n => if w.bytes ≤ n then w :: tailPlan ws (n - w.bytes) else tailPlan ws n

/-- The chunk plan for n bytes: the bulk in widest chunks, then the tail (41_hw_engine.md R70). -/
def plan (x : Xlen) (n : Nat) : List ChunkWidth :=
  List.replicate (n / (widest x).bytes) (widest x) ++ tailPlan (narrower x) (n % (widest x).bytes)

/-- The chunk loop of 41_hw_engine.md R71. Chunk addresses are XLEN-bit sums (00_scope.md R8); DEDUCED (log entry 9), safe. -/
def hwFoldPlan (f : HwFold) (x : Xlen) : List ChunkWidth → Word → Addr → List Byte → Word
  | [], c, _, _ => c
  | w :: ws, c, a, bs =>
    hwFoldPlan f x ws (f w c a (bs.take w.bytes)) (addrAdd x a w.bytes) (bs.drop w.bytes)

/-- The hardware checksum of bytes that start at `a` (41_hw_engine.md R71, R72). -/
def hwCrc (inp : Inputs) (a : Addr) (bs : List Byte) : Word :=
  if inp.hwPath = false then swCrc bs
  else ~~~(hwFoldPlan (hwFoldOf inp.hw) inp.xlen (plan inp.xlen bs.length) crcInitial a bs)

/-- The checksum an engine gives (43_dispatch.md R88). -/
def engineCrc (inp : Inputs) (a : Addr) (bs : List Byte) : Engine → Word
  | .hw => hwCrc inp a bs
  | .sw => swCrc bs

/-! ### The self-check's comparison -/

/-- `TV = "123456789"` (44_self_check.md R97, 00_scope.md R10). -/
def checkVector : List Byte := [0x31, 0x32, 0x33, 0x34, 0x35, 0x36, 0x37, 0x38, 0x39]

/-- `PAT[i] = (3·i + 1) mod 256` (44_self_check.md R97). -/
def patByte (i : Nat) : Byte := BitVec.ofNat 8 (3 * i + 1)

/-- `PAT[o .. o+l)`. -/
def patSlice (o l : Nat) : List Byte := (List.range l).map (fun i => patByte (o + i))

/-- `OFFS` of 44_self_check.md R97. -/
def checkOffsets : List Nat := [0, 1, 2, 3, 4, 7, 8, 15, 31, 63]

/-- `LENS` of 44_self_check.md R97. -/
def checkLengths : List Nat := [0, 1, 2, 3, 4, 7, 8, 15, 16, 31, 32, 63, 64, 255]

/-- Whether the engines differ on a slice of the pattern. -/
def sliceDiffers (inp : Inputs) (o l : Nat) : Bool :=
  hwCrc inp (addrAdd inp.xlen inp.scPatternBase o) (patSlice o l) != swCrc (patSlice o l)

/-- `mismatch()` of 44_self_check.md R97: the engines differ on the test vector or on a slice that fits in the pattern. -/
def mismatch (inp : Inputs) : Bool :=
  hwCrc inp inp.scTvBase checkVector != swCrc checkVector ||
    checkOffsets.any fun o => checkLengths.any fun l => decide (o + l ≤ inp.scPatternLen) && sliceDiffers inp o l

end Sys2Proof.Machine
end

