-- ==== Sys2Proof/Machine/Operands.lean ====
section
/-! DEFINITION. Every operand form of the commands: the operand registers (10_state.md R15), the chunk operand of the fold
commands (41_hw_engine.md R74) and the whole-buffer operand of the one-shot commands (40_sw_engine.md R64). -/

namespace Sys2Proof.Machine

/-- A read of an operand register: an unwritten one raises UNINIT_REG (10_state.md R15, 60_exceptions.md R107). -/
def readReg {α : Type} : Option α → Except Trap α
  | some v => .ok v
  | none => .error .uninitReg

/-- The common body of SW.BYTE and the chunk commands for n bytes (40_sw_engine.md R63, 41_hw_engine.md R74): C, ADDR and LEN
are read, LEN must reach n, the bytes are read and folded into C, ADDR advances and LEN shrinks. -/
def Port.foldChunk (p : Port) (inp : Inputs) (m : Memory) (n : Nat) (f : Word → Addr → List Byte → Word) :
    Except Trap Port := do
  let c ← readReg p.c
  let a ← readReg p.addr
  let len ← readReg p.len
  require (decide (n ≤ len.toNat)) .lenUnderflow
  let bs ← Memory.read m inp.xlen a n
  .ok { p with
    c := some (f c a bs)
    addr := some (addrAdd inp.xlen a n)
    len := some (len - BitVec.ofNat 64 n)
    pc := p.pc + 1 }

/-- The whole buffer of a one-shot command (40_sw_engine.md R64, 41_hw_engine.md R78, 43_dispatch.md R88): LEN is read, ADDR is
read only when LEN > 0 (60_exceptions.md R107), then the bytes. For LEN = 0 the address beside the empty list is one that no
rule looks at (log entry 14). -/
def Port.buffer (p : Port) (inp : Inputs) (m : Memory) : Except Trap (Addr × List Byte) := do
  let len ← readReg p.len
  if len = 0 then .ok (p.addr.getD 0, [])
  else
    let a ← readReg p.addr
    let bs ← Memory.read m inp.xlen a len.toNat
    .ok (a, bs)

/-- A command that returns a value: R takes it and PC advances by 1 (10_state.md R14). -/
def Port.result (p : Port) (v : Word) : Port := { p with r := some v, pc := p.pc + 1 }

/-- Runs a body that changes the executing port only. -/
def State.runPort (s : State) (r : Except Trap Port) : Host.Outcome State Fault Refusal :=
  s.settle (r.map s.setMe)

end Sys2Proof.Machine
end

