-- ==== Sys2Proof/Machine/Flags.lean ====
section
/-! DEFINITION. The block has no condition flags (10_state.md R22). This file holds the codes that status values take: the
results of HWAVAIL, NAME and SELFCHECK and the observation words DSTAT, CFG and PSTAT (10_state.md R27, R28). -/

namespace Sys2Proof.Machine

/-- `zext_32` of a Boolean: the result of HWAVAIL (42_capability.md R80). -/
def boolCode (b : Bool) : Word := if b then 1 else 0

/-- The result of NAME: "hw" or "sw" as ASCII bytes, the first in bits [7:0] (43_dispatch.md R90). -/
def nameCode (sel : Selector) : Word := if sel = .hw then 0x00007768 else 0x00007773

/-- The encoding of SEL (10_state.md R23). -/
def Selector.code : Selector → BitVec 2
  | .undecided => 0
  | .hw => 1
  | .sw => 2

/-- The encoding of INIT (10_state.md R25). -/
def InitGuard.code : InitGuard → BitVec 2
  | .none => 0
  | .busy => 1
  | .done => 2

/-- The encoding of PH (10_state.md R18). -/
def Phase.code : Phase → BitVec 2
  | .ready => 0
  | .forceSet => 1
  | .scMatch => 2
  | .scMismatch => 3

/-- The encoding of SCS (10_state.md R20). -/
def CheckStatus.code : CheckStatus → BitVec 2
  | .none => 0
  | .success => 1
  | .nothingToCheck => 2
  | .failure => 3

/-- The encoding of ERR (60_exceptions.md R104). -/
def ErrCode.code : ErrCode → BitVec 4
  | .none => 0
  | .illegalCmd => 1
  | .hwUnsupported => 2
  | .uninitReg => 3
  | .lenUnderflow => 4
  | .memFault => 5

/-- The encoding of ENV in CFG (10_state.md R27). -/
def envCode : Env → BitVec 2
  | .absent => 0
  | .sw => 1
  | .hw => 2
  | .other => 3

/-- The observation word DSTAT (10_state.md R27). -/
def State.dstat (s : State) : Word :=
  (0 : BitVec 16) ++ s.initOwner ++ (0 : BitVec 3) ++ s.init.code ++ BitVec.ofBool s.force ++ s.sel.code

/-- The observation word CFG (10_state.md R27). -/
def cfgWord (inp : Inputs) : Word :=
  (0 : BitVec 27) ++ BitVec.ofBool (inp.xlen == .x64) ++ envCode inp.env ++ BitVec.ofBool inp.hwPath
    ++ BitVec.ofBool inp.cap

/-- The observation word PSTAT of a port (10_state.md R28). -/
def Port.pstat (p : Port) : Word :=
  (0 : BitVec 20) ++ p.err.code ++ (0 : BitVec 2) ++ BitVec.ofBool p.faulted ++ BitVec.ofBool p.stale ++ p.ph.code
    ++ p.scs.code

/-- How the host classifies the configuration setting: the exact literals "sw" and "hw", any other value, or absence
(43_dispatch.md R82). The block itself reads the classified ENV only (91_not_in_source.md N4). -/
def classifySetting : Option (List Byte) → Env
  | none => .absent
  | some v => if v = [0x73, 0x77] then .sw else if v = [0x68, 0x77] then .hw else .other

end Sys2Proof.Machine
end

