-- ==== Sys2Proof/Machine/Capability.lean ====
section
/-! DEFINITION. The capability family: HWAVAIL (42_capability.md R80). -/

namespace Sys2Proof.Machine

/-- HWAVAIL: `R <- zext_32(CAP); PC <- PC + 1`, whatever the dispatch state (42_capability.md R80). -/
def execHwavail (s : State) : Host.Outcome State Fault Refusal :=
  s.runPort (.ok (s.me.result (boolCode s.inp.cap)))

end Sys2Proof.Machine
end

