-- ==== Sys2Proof/Machine/Hardware.lean ====
section
/-! DEFINITION. The hardware engine family: HW.U8, HW.U16, HW.U32, HW.U64, HW.CRC (41_hw_engine.md R73 to R78). -/

namespace Sys2Proof.Machine

/-- The chunk-command template of 41_hw_engine.md R74: ILLEGAL_CMD without HW_PATH or for the 8-byte chunk at XLEN = 32
(30_encoding.md R53; the decoder refuses these words already, log entry 10, safe), HW_UNSUPPORTED without CAP (R73), then
the fold of one chunk by the CPU instruction. -/
def chunkCommand (w : ChunkWidth) (s : State) : Host.Outcome State Fault Refusal :=
  s.runPort do
    require (s.inp.hwPath && !(w == .w8 && s.inp.xlen == .x32)) .illegalCmd
    require s.inp.cap .hwUnsupported
    s.me.foldChunk s.inp s.mem w.bytes (hwFoldOf s.inp.hw w)

/-- HW.U8: a chunk of 1 byte (41_hw_engine.md R74). -/
def execHwU8 (s : State) : Host.Outcome State Fault Refusal := chunkCommand .w1 s

/-- HW.U16: a chunk of 2 bytes (41_hw_engine.md R75). -/
def execHwU16 (s : State) : Host.Outcome State Fault Refusal := chunkCommand .w2 s

/-- HW.U32: a chunk of 4 bytes (41_hw_engine.md R76). -/
def execHwU32 (s : State) : Host.Outcome State Fault Refusal := chunkCommand .w4 s

/-- HW.U64: a chunk of 8 bytes (41_hw_engine.md R77). -/
def execHwU64 (s : State) : Host.Outcome State Fault Refusal := chunkCommand .w8 s

/-- HW.CRC: the hardware engine over the whole buffer, without the dispatcher (41_hw_engine.md R78). With HW_PATH = false it
is the software engine and cannot raise HW_UNSUPPORTED (R72, R73). -/
def execHwCrc (s : State) : Host.Outcome State Fault Refusal :=
  s.runPort do
    require (!(s.inp.hwPath && !s.inp.cap)) .hwUnsupported
    let ab ← s.me.buffer s.inp s.mem
    .ok (s.me.result (hwCrc s.inp ab.1 ab.2))

end Sys2Proof.Machine
end

