-- ==== Sys2Proof/Machine/Selection.lean ====
section
/-! DEFINITION. The dispatch family: CSUM, NAME, FORCESW (43_dispatch.md R88 to R91). -/

namespace Sys2Proof.Machine

/-- `draw({HW, SW})` (43_dispatch.md R88): the tape's next choice, or the opaque free choice of this step when the tape is
empty (log entry 2, safe). -/
def State.drawn (s : State) : Engine :=
  match s.draws with
  | e :: _ => e
  | [] => Config.staleDraw s.tick

/-- The engine that CSUM's body runs (43_dispatch.md R88, R89). -/
def State.csumEngine (s : State) : Engine :=
  if s.sel = .hw then .hw else if s.me.stale then s.drawn else .sw

/-- A drawn choice is used up. -/
def State.drawsLeft (s : State) : List Engine :=
  if s.sel ≠ .hw ∧ s.me.stale = true then s.draws.tail else s.draws

/-- The end of CSUM's body: R takes the checksum, STALE is cleared, a drawn choice is used up (43_dispatch.md R88). -/
def State.csumDone (s : State) (v : Word) : State :=
  { s with
    draws := s.drawsLeft
    ports := s.ports.set s.cur { s.me with r := some v, stale := false, pc := s.me.pc + 1 } }

/-- CSUM's body at INIT = DONE (43_dispatch.md R88). -/
def csumBody (s : State) : Host.Outcome State Fault Refusal :=
  s.settle do
    let ab ← s.me.buffer s.inp s.mem
    .ok (s.csumDone (engineCrc s.inp ab.1 ab.2 s.csumEngine))

/-- CSUM: the public operation "Compute checksum" (43_dispatch.md R88). -/
def execCsum (s : State) : Host.Outcome State Fault Refusal := s.protocol csumBody

/-- NAME's body at INIT = DONE (43_dispatch.md R90). -/
def nameBody (s : State) : Host.Outcome State Fault Refusal :=
  s.runPort (.ok { s.me with r := some (nameCode s.sel), stale := false, pc := s.me.pc + 1 })

/-- NAME: the public operation "Query implementation name" (43_dispatch.md R90). -/
def execName (s : State) : Host.Outcome State Fault Refusal := s.protocol nameBody

/-- FORCESW's flag step, enabled whatever INIT holds (43_dispatch.md R91). -/
def forceFlag (s : State) : State :=
  { s with force := true, ports := s.ports.set s.cur { s.me with ph := .forceSet } }

/-- FORCESW's body at INIT = DONE (43_dispatch.md R91). -/
def forceBody (s : State) : Host.Outcome State Fault Refusal :=
  .next (s.forceSoftware.setMe { s.me with stale := false, ph := .ready, pc := s.me.pc + 1 })

/-- FORCESW: the public operation "Force software" (43_dispatch.md R91). -/
def execForcesw (s : State) : Host.Outcome State Fault Refusal :=
  match s.me.ph with
  | .ready => .next (forceFlag s)
  | .forceSet => s.protocol forceBody
  | .scMatch => .fault .wrongPhase
  | .scMismatch => .fault .wrongPhase

end Sys2Proof.Machine
end

