-- ==== Sys2Proof/Machine/SelfCheck.lean ====
section
/-! DEFINITION. The self-check family: SELFCHECK (44_self_check.md R94 to R98). -/

namespace Sys2Proof.Machine

/-- The first body step: nothing to check unless SEL = HW (44_self_check.md R95), else every comparison at once (R96). -/
def checkFirst (s : State) : Host.Outcome State Fault Refusal :=
  if s.sel = .hw then
    s.runPort (.ok { s.me with ph := if mismatch s.inp then .scMismatch else .scMatch, stale := false })
  else
    s.runPort (.ok { s.me with r := some 0, scs := .nothingToCheck, stale := false, pc := s.me.pc + 1 })

/-- The second body step after a match (44_self_check.md R98). -/
def checkPass (s : State) : Host.Outcome State Fault Refusal :=
  s.runPort (.ok { s.me with r := some 0, scs := .success, ph := .ready, pc := s.me.pc + 1 })

/-- The second body step after a mismatch: software is forced and failure reported (44_self_check.md R98). -/
def checkFail (s : State) : Host.Outcome State Fault Refusal :=
  .next (s.forceSoftware.setMe { s.me with r := some 1, scs := .failure, ph := .ready, pc := s.me.pc + 1 })

/-- SELFCHECK's body at INIT = DONE, by phase (44_self_check.md R94). -/
def checkBody (s : State) : Host.Outcome State Fault Refusal :=
  match s.me.ph with
  | .ready => checkFirst s
  | .scMatch => checkPass s
  | .scMismatch => checkFail s
  | .forceSet => .fault .wrongPhase

/-- SELFCHECK (44_self_check.md R94): the protocol, then one or two body steps. -/
def execSelfcheck (s : State) : Host.Outcome State Fault Refusal := s.protocol checkBody

end Sys2Proof.Machine
end

