-- ==== Sys2Proof/Machine/Software.lean ====
section
/-! DEFINITION. The software engine family: CRC.INIT, SW.STEP, SW.BYTE, SW.CRC, CRC.FINAL (40_sw_engine.md R61 to R65). -/

namespace Sys2Proof.Machine

/-- CRC.INIT: `C <- 0xFFFFFFFF; PC <- PC + 1` (40_sw_engine.md R61). -/
def execCrcInit (s : State) : Host.Outcome State Fault Refusal :=
  s.runPort (.ok { s.me with c := some crcInitial, pc := s.me.pc + 1 })

/-- SW.STEP: `C <- step(C); PC <- PC + 1` (40_sw_engine.md R62). -/
def execSwStep (s : State) : Host.Outcome State Fault Refusal :=
  s.runPort ((readReg s.me.c).map fun c => { s.me with c := some (crcStep c), pc := s.me.pc + 1 })

/-- SW.BYTE: one buffer byte folded into C by the software algorithm (40_sw_engine.md R63). -/
def execSwByte (s : State) : Host.Outcome State Fault Refusal :=
  s.runPort (s.me.foldChunk s.inp s.mem 1 fun c _ bs => swFold c bs)

/-- SW.CRC: `R <- swCrc(bs); PC <- PC + 1` over the whole buffer (40_sw_engine.md R64). -/
def execSwCrc (s : State) : Host.Outcome State Fault Refusal :=
  s.runPort ((s.me.buffer s.inp s.mem).map fun ab => s.me.result (swCrc ab.2))

/-- CRC.FINAL: `R <- ~C; PC <- PC + 1` (40_sw_engine.md R65). -/
def execCrcFinal (s : State) : Host.Outcome State Fault Refusal :=
  s.runPort ((readReg s.me.c).map fun c => s.me.result (~~~c))

end Sys2Proof.Machine
end

