-- ==== Sys2Proof/Machine/Transfer.lean ====
section
/-! DEFINITION. The operand transfer family: LDA, LDL, LDC, GETC (45_operand_transfer.md R99 to R102). -/

namespace Sys2Proof.Machine

/-- An immediate of format A as the command takes it. One that does not fit XLEN bits is ILLEGAL_CMD (30_encoding.md R50); the
decoder refuses its words already, and the check here keeps `exec` to the rule in every state (log entry 10, safe). -/
def immOperand (inp : Inputs) (imm : Addr) : Except Trap Addr := do
  require (decide (imm.toNat < 2 ^ inp.xlen.bits)) .illegalCmd
  .ok imm

/-- LDA: `ADDR <- imm; PC <- PC + 3` (45_operand_transfer.md R99). -/
def execLda (imm : Addr) (s : State) : Host.Outcome State Fault Refusal :=
  s.runPort ((immOperand s.inp imm).map fun v => { s.me with addr := some v, pc := s.me.pc + 3 })

/-- LDL: `LEN <- imm; PC <- PC + 3` (45_operand_transfer.md R100). -/
def execLdl (imm : Addr) (s : State) : Host.Outcome State Fault Refusal :=
  s.runPort ((immOperand s.inp imm).map fun v => { s.me with len := some v, pc := s.me.pc + 3 })

/-- LDC: `C <- imm32; PC <- PC + 2` (45_operand_transfer.md R101). -/
def execLdc (imm : Word) (s : State) : Host.Outcome State Fault Refusal :=
  s.runPort (.ok { s.me with c := some imm, pc := s.me.pc + 2 })

/-- GETC: `R <- C; PC <- PC + 1` (45_operand_transfer.md R102). -/
def execGetc (s : State) : Host.Outcome State Fault Refusal :=
  s.runPort ((readReg s.me.c).map s.me.result)

end Sys2Proof.Machine
end

