-- ==== Sys2Proof/Machine/Dispatch.lean ====
section
/-! DEFINITION. The one dispatch of every command to its meaning, executed at port `cur` (30_encoding.md R51). -/

namespace Sys2Proof.Machine

def exec (i : Instr) (s : State) : Host.Outcome State Fault Refusal :=
  match i with
  | .lda imm => Sys2Proof.Machine.execLda imm s
  | .ldl imm => Sys2Proof.Machine.execLdl imm s
  | .ldc imm => Sys2Proof.Machine.execLdc imm s
  | .getc => Sys2Proof.Machine.execGetc s
  | .crcInit => Sys2Proof.Machine.execCrcInit s
  | .swStep => Sys2Proof.Machine.execSwStep s
  | .swByte => Sys2Proof.Machine.execSwByte s
  | .swCrc => Sys2Proof.Machine.execSwCrc s
  | .crcFinal => Sys2Proof.Machine.execCrcFinal s
  | .hwU8 => Sys2Proof.Machine.execHwU8 s
  | .hwU16 => Sys2Proof.Machine.execHwU16 s
  | .hwU32 => Sys2Proof.Machine.execHwU32 s
  | .hwU64 => Sys2Proof.Machine.execHwU64 s
  | .hwCrc => Sys2Proof.Machine.execHwCrc s
  | .hwavail => Sys2Proof.Machine.execHwavail s
  | .csum => Sys2Proof.Machine.execCsum s
  | .name => Sys2Proof.Machine.execName s
  | .forcesw => Sys2Proof.Machine.execForcesw s
  | .selfcheck => Sys2Proof.Machine.execSelfcheck s

end Sys2Proof.Machine
end

