-- ==== Sys2Proof/Machine/Schedule.lean ====
section
/-! DEFINITION. Fetching a command (30_encoding.md R45), which ports have an enabled step (43_dispatch.md R86,
60_exceptions.md R111), the choice of the port that takes the next step (10_state.md R13), and the end of a run
(70_reset_and_hazards.md R125). -/

namespace Sys2Proof.Machine

/-- The command at a port's PC (30_encoding.md R45). -/
def Port.fetch (p : Port) (inp : Inputs) : Except DecodeError Instr := decode inp (p.stream.drop p.pc.toNat)

/-- The dispatch-triggering commands (43_dispatch.md R81). -/
def triggersDispatch : Instr → Bool
  | .lda _ => false
  | .ldl _ => false
  | .ldc _ => false
  | .getc => false
  | .crcInit => false
  | .swStep => false
  | .swByte => false
  | .swCrc => false
  | .crcFinal => false
  | .hwU8 => false
  | .hwU16 => false
  | .hwU32 => false
  | .hwU64 => false
  | .hwCrc => false
  | .hwavail => false
  | .csum => true
  | .name => true
  | .forcesw => true
  | .selfcheck => true

/-- Whether a command in a phase runs the initialization protocol: the flag step of FORCESW does not (43_dispatch.md R84, R91). -/
def needsInit (i : Instr) (ph : Phase) : Bool := triggersDispatch i && !(i == .forcesw && ph == .ready)

/-- Port number p holds: its command needs initialization and another port owns it (43_dispatch.md R86). -/
def State.held (s : State) (p : Nat) (pt : Port) : Bool :=
  s.init == .busy && !(s.initOwner.toNat == p) &&
    match pt.fetch s.inp with
    | .ok i => needsInit i pt.ph
    | .error _ => false

/-- Port number p has an enabled step: it exists, is not faulted (60_exceptions.md R111), has a word to fetch
(30_encoding.md R45) and does not hold. -/
def State.enabled (s : State) (p : Nat) : Bool :=
  match s.ports[p]? with
  | none => false
  | some pt => !pt.faulted && decide (pt.pc.toNat < pt.stream.length) && !s.held p pt

/-- The numbers of the ports with an enabled step, in ascending order. -/
def State.enabledPorts (s : State) : List Nat := (List.range s.ports.length).filter s.enabled

/-- The scheduler's choice for the next step: the tape's, or the opaque free choice when the tape is empty
(10_state.md R13; log entry 1, safe). -/
def State.turn (s : State) : Nat :=
  match s.sched with
  | k :: _ => k
  | [] => Config.schedule s.tick

/-- The element that a choice names: the one at that place, or the last one for a choice past the end. -/
def chooseFrom : List Nat → Nat → Option Nat
  | [], _ => none
  | [p], _ => some p
  | p :: _ :: _, 0 => some p
  | _ :: q :: rest, k + 1 => chooseFrom (q :: rest) k

/-- The port that takes the next step: any enabled port may be chosen, and no other (10_state.md R13). -/
def State.pick (s : State) : Option Nat := chooseFrom s.enabledPorts s.turn

/-- Port p is about to take its step: the choice is used up. -/
def State.select (s : State) (p : Nat) : State :=
  { s with cur := p, sched := s.sched.tail, tick := s.tick + 1 }

/-- A port has ended (10_state.md R17) and is not faulted. -/
def Port.ended (p : Port) : Bool := p.pc.toNat == p.stream.length && p.ph == .ready && !p.faulted

/-- The end state of a run (70_reset_and_hazards.md R125). -/
def State.endState (s : State) : Bool := s.ports.all Port.ended

/-- Why no step can be taken where no port has an enabled step. -/
def State.stopReason (s : State) : Fault := if s.endState then .runEnded else .stuck

/-- Words put over a list from a place on, with zero words before it where the list is shorter. -/
def putWords : List Word → Nat → List Word → List Word
  | ws, 0, new => new ++ ws.drop new.length
  | [], n + 1, new => 0 :: putWords [] n new
  | w :: ws, n + 1, new => w :: putWords ws n new

/-- A port made ready to fetch these words as its next command: they stand at its PC, and it is neither faulted nor in the
middle of another command (30_encoding.md R45). -/
def Port.withWords (p : Port) (ws : List Word) : Port :=
  { p with stream := putWords p.stream p.pc.toNat ws, faulted := false, ph := .ready }

/-- The scheduler's next choice is made for the executing port. -/
def State.chooseMe (s : State) : State :=
  { s with sched := (s.enabledPorts.filter (fun p => decide (p < s.cur))).length :: s.sched }

end Sys2Proof.Machine
end

