-- ==== Sys2Proof/Machine/Step.lean ====
section
/-! DEFINITION. One step of the block: one step of one port with an enabled step (10_state.md R13, 20_memory.md R41). -/

namespace Sys2Proof.Machine

/-- A step of the selected port: the command at its PC, or ILLEGAL_CMD where the words spell none (30_encoding.md R45, R52,
R53; 60_exceptions.md R105). -/
def stepAt (s : State) : Host.Outcome State Fault Refusal :=
  match s.me.fetch s.inp with
  | .ok i => exec i s
  | .error _ => .next (s.raise .illegalCmd)

/-- One step of the block. -/
def step (s : State) : Host.Outcome State Fault Refusal :=
  match s.pick with
  | some p => stepAt (s.select p)
  | none => .fault s.stopReason

/-- `s` with a command placed in the stream of port `cur` at its PC, and the scheduler's next choice made for that port, so
that the next step fetches and runs it. It stands for the host's launch of a program (log entry 6). -/
def State.withFetchWord (s : State) (nbits w : Nat) : State :=
  (s.setMe (s.me.withWords (wordsOfNat (w % 2 ^ nbits)))).chooseMe

end Sys2Proof.Machine
end

