-- ==== Sys2Proof/Safety.lean ====
section
/-! DEFINITION. What counts as a safe run, in the terms the statements use: HW_CONFORMS (41_hw_engine.md R68), consistent
launch parameters (70_reset_and_hazards.md R124), the invariants of 10_state.md R16, R17, R21 and R29, runs of steps, and the
step count of 70_reset_and_hazards.md R126. -/

namespace Sys2Proof.Machine

/-! ### Premises about the environment -/

/-- HW_CONFORMS (41_hw_engine.md R68): every chunk fold equals the software fold of the chunk's bytes. -/
def HwConforms (f : HwFold) : Prop :=
  ∀ (w : ChunkWidth) (c : Word) (a : Addr) (bs : List Byte), bs.length = w.bytes → f w c a bs = swFold c bs

/-- The constraint on the parameters (00_scope.md R7): without HW_PATH there is no CAP. -/
def CapNeedsPath (inp : Inputs) : Prop := inp.hwPath = false → inp.cap = false

/-- The streams of a run have fewer than 2^32 words (10_state.md R17). -/
def StreamsFit (streams : List (List Word)) : Prop := ∀ ws ∈ streams, ws.length < 2 ^ 32

/-! ### Invariants -/

/-- A value that fits in XLEN bits, or an unwritten register (10_state.md R16). -/
def fitsReg (x : Xlen) (v : Option Addr) : Prop := ∀ a, v = some a → a.toNat < 2 ^ x.bits

/-- ADDR, LEN and FAULT_ADDR hold XLEN-bit values (10_state.md R16, R21). -/
def RegistersFit (s : State) : Prop :=
  ∀ p ∈ s.ports, fitsReg s.inp.xlen p.addr ∧ fitsReg s.inp.xlen p.len ∧ fitsReg s.inp.xlen p.faultAddr

/-- PC stays within the stream, and the stream is shorter than 2^32 words, so PC does not wrap (10_state.md R17). -/
def PcWithinStream (s : State) : Prop :=
  ∀ p ∈ s.ports, p.pc.toNat ≤ p.stream.length ∧ p.stream.length < 2 ^ 32

/-- The fault record of a port (10_state.md R21, 60_exceptions.md R104, R111): empty while no fault has happened; after a
fault it holds a code, the PC, where the port still stands, word 0 of the faulting command, and an address exactly for
MEM_FAULT. -/
def faultRecordOk (p : Port) : Prop :=
  (p.faulted = false → p.err = .none ∧ p.faultPc = 0 ∧ p.faultCmd = 0 ∧ p.faultAddr = none) ∧
  (p.faulted = true → p.err ≠ .none ∧ p.faultPc = p.pc ∧ p.stream[p.pc.toNat]? = some p.faultCmd ∧
    (p.faultAddr.isSome = true ↔ p.err = .memFault))

/-- Every port's fault record is in order. -/
def FaultRecordsOk (s : State) : Prop := ∀ p ∈ s.ports, faultRecordOk p

/-- A port is in a phase of FORCESW or SELFCHECK only while it executes that command (10_state.md R18); the flag step has set
FORCE by then (43_dispatch.md R91), and the comparison needs a completed initialization (44_self_check.md R94). -/
def phaseOk (s : State) (p : Port) : Prop :=
  (p.ph = .forceSet → p.fetch s.inp = .ok .forcesw ∧ s.force = true) ∧
  (p.ph = .scMatch ∨ p.ph = .scMismatch → p.fetch s.inp = .ok .selfcheck ∧ s.init = .done)

/-- INIT's owner exists, is not faulted, is READY or FORCE_SET, and executes a dispatch-triggering command
(10_state.md R29 (d), 60_exceptions.md R114). -/
def ownerOk (s : State) : Prop :=
  ∃ p i, s.ports[s.initOwner.toNat]? = some p ∧ p.faulted = false ∧ (p.ph = .ready ∨ p.ph = .forceSet) ∧
    p.fetch s.inp = .ok i ∧ triggersDispatch i = true

/-- The dispatch invariant: 10_state.md R29 (a), (b), (d) and (e), the constraint of 00_scope.md R7, at most 256 ports
(10_state.md R27), the phases of 10_state.md R18, and what STALE records (10_state.md R19). -/
structure DispatchInv (s : State) : Prop where
  portCount : s.ports.length ≤ 256
  capNeedsPath : CapNeedsPath s.inp
  undecidedIff : s.sel = .undecided ↔ s.init ≠ .done
  hwCapable : s.sel = .hw → s.inp.cap = true ∧ s.inp.hwPath = true
  owner : s.init = .busy → ownerOk s
  ownerIdle : s.init ≠ .busy → s.initOwner = 0
  phases : ∀ p ∈ s.ports, phaseOk s p
  stale : ∀ p ∈ s.ports, p.stale = true → s.sel = .sw ∧ s.inp.cap = true ∧ s.inp.hwPath = true

/-! ### Runs -/

/-- `Reaches s t`: some finite sequence of steps leads from `s` to `t`. -/
inductive Reaches : State → State → Prop where
  | refl (s : State) : Reaches s s
  | tail (s t u : State) : Reaches s t → step t = .next u → Reaches s u

/-- The commands of a list, executed one after another at the executing port, as far as each gives a next state. -/
def execAll : List Instr → State → Host.Outcome State Fault Refusal
  | [], s => .next s
  | i :: rest, s =>
    match exec i s with
    | .next t => execAll rest t
    | .fault f => .fault f
    | .refused r => .refused r

/-- The commands of a stream, counted up to the first words that spell none, which count as one (n_p of
70_reset_and_hazards.md R126). The first argument bounds the count and is at least the number of words. -/
def countCommands (inp : Inputs) : Nat → List Word → Nat
  | 0, _ => 0
  | _ + 1, [] => 0
  | fuel + 1, w :: ws =>
    match decode inp (w :: ws) with
    | .ok i => 1 + countCommands inp fuel ((w :: ws).drop i.format.words)
    | .error _ => 1

/-- n_p of 70_reset_and_hazards.md R126. -/
def commandCount (inp : Inputs) (ws : List Word) : Nat := countCommands inp ws.length ws

/-- The bound of 70_reset_and_hazards.md R126: 2 + the sum of 2·n_p. -/
def stepBound (inp : Inputs) (streams : List (List Word)) : Nat :=
  2 + (streams.map fun ws => 2 * commandCount inp ws).sum

end Sys2Proof.Machine
end

