-- ==== Sys2Proof/Certificates/Slice0/Obligations.lean ====
section
/-! DEFINITION. The statements for the provers. Each docstring names the rule of spec/ it formalises. -/

open Sys2Proof Sys2Proof.Machine

/-! ### The engines as functions -/

/-- 40_sw_engine.md R57 to R60: the bit step, the byte step, the fold over a byte list in list order, how folds compose, and
the checksum, which is 0 for no bytes. -/
def Obligations.SoftwareEngineFollowsItsRules : Prop :=
  (∀ c : Word, crcStep c = (c >>> 1) ^^^ (if c.getLsbD 0 then 0x82F63B78 else 0)) ∧
  (∀ (c : Word) (b : Byte), swByte c b = Nat.iterate crcStep 8 (c ^^^ b.setWidth 32)) ∧
  (∀ c : Word, swFold c [] = c) ∧
  (∀ (c : Word) (b : Byte) (rest : List Byte), swFold c (b :: rest) = swFold (swByte c b) rest) ∧
  (∀ (c : Word) (xs ys : List Byte), swFold c (xs ++ ys) = swFold (swFold c xs) ys) ∧
  (∀ bs : List Byte, swCrc bs = ~~~(swFold 0xFFFFFFFF bs)) ∧
  swCrc [] = 0 ∧
  swCrc [0x31, 0x32, 0x33, 0x34, 0x35, 0x36, 0x37, 0x38, 0x39] = 0xE3069283

/-- 40_sw_engine.md R66: `step` is linear over xor, so the fold is affine in the initial register value. -/
def Obligations.SoftwareFoldIsAffineInTheRegister : Prop :=
  (∀ a b : Word, crcStep (a ^^^ b) = crcStep a ^^^ crcStep b) ∧
  ∀ (c d : Word) (bs : List Byte),
    swFold (c ^^^ d) bs = swFold c bs ^^^ Nat.iterate crcStep (8 * bs.length) d

/-- 40_sw_engine.md R66: `step` and every fold are bijections, and 4 bytes reach every register value from all ones. -/
def Obligations.SoftwareFoldIsBijective : Prop :=
  Function.Bijective crcStep ∧
  (∀ bs : List Byte, Function.Bijective fun c => swFold c bs) ∧
  ∀ v : Word, ∃ bs : List Byte, bs.length = 4 ∧ swFold crcInitial bs = v

/-- 41_hw_engine.md R70: the plan takes a widest chunk while n ≥ W, then each narrower width at most once where it still
fits, and consumes exactly n bytes. -/
def Obligations.ChunkPlanFollowsTheLoop : Prop :=
  (widest .x64).bytes = 8 ∧ (widest .x32).bytes = 4 ∧ plan .x64 0 = [] ∧ plan .x32 0 = [] ∧
  (∀ x n, (widest x).bytes ≤ n → plan x n = widest x :: plan x (n - (widest x).bytes)) ∧
  (∀ n, n < 8 → plan .x64 n =
    (if 4 ≤ n then [.w4] else []) ++ (if 2 ≤ n % 4 then [.w2] else []) ++ (if 1 ≤ n % 2 then [.w1] else [])) ∧
  (∀ n, n < 4 → plan .x32 n = (if 2 ≤ n then [.w2] else []) ++ (if 1 ≤ n % 2 then [.w1] else [])) ∧
  ∀ x n, ((plan x n).map ChunkWidth.bytes).sum = n

/-- 41_hw_engine.md R71: the hardware checksum folds the plan's chunks in order from all ones, each at its own address, and
complements the result; for no bytes it is 0 whatever HWFOLD is. Chunk addresses are XLEN-bit sums (log entry 9). -/
def Obligations.HardwareChecksumFoldsThePlan : Prop :=
  (∀ (inp : Inputs) (a : Addr) (bs : List Byte), inp.hwPath = true →
    hwCrc inp a bs = ~~~(hwFoldPlan (hwFoldOf inp.hw) inp.xlen (plan inp.xlen bs.length) 0xFFFFFFFF a bs)) ∧
  (∀ (f : HwFold) (x : Xlen) (w : ChunkWidth) (ws : List ChunkWidth) (c : Word) (a : Addr) (chunk rest : List Byte),
    chunk.length = w.bytes →
    hwFoldPlan f x (w :: ws) c a (chunk ++ rest) =
      hwFoldPlan f x ws (f w c a chunk) (BitVec.ofNat 64 ((a.toNat + w.bytes) % 2 ^ x.bits)) rest) ∧
  (∀ (f : HwFold) (x : Xlen) (c : Word) (a : Addr) (bs : List Byte), hwFoldPlan f x [] c a bs = c) ∧
  ∀ (inp : Inputs) (a : Addr), hwCrc inp a [] = 0

/-- 41_hw_engine.md R69 (a), R72: under HW_CONFORMS, and without HW_PATH for every HWFOLD, the hardware checksum is the
software checksum. -/
def Obligations.ConformingHardwareGivesTheSoftwareChecksum : Prop :=
  (∀ (inp : Inputs) (a : Addr) (bs : List Byte), HwConforms (hwFoldOf inp.hw) → hwCrc inp a bs = swCrc bs) ∧
  ∀ (inp : Inputs) (a : Addr) (bs : List Byte), inp.hwPath = false → hwCrc inp a bs = swCrc bs

/-- 41_hw_engine.md R69 (b): if the hardware checksum is right on every buffer that fits below 2^XLEN, then every chunk fold
of a width up to W at an address of at least W is the software fold, and so is every one from all ones at any address. -/
def Obligations.WholeBufferAgreementForcesChunkAgreement : Prop :=
  ∀ (inp : Inputs), inp.hwPath = true →
    (∀ (a : Addr) (bs : List Byte), a.toNat + bs.length ≤ 2 ^ inp.xlen.bits → hwCrc inp a bs = swCrc bs) →
    (∀ (w : ChunkWidth) (c : Word) (a : Addr) (bs : List Byte), w.bytes ≤ (widest inp.xlen).bytes →
      bs.length = w.bytes → (widest inp.xlen).bytes ≤ a.toNat → a.toNat + w.bytes ≤ 2 ^ inp.xlen.bits →
      hwFoldOf inp.hw w c a bs = swFold c bs) ∧
    ∀ (w : ChunkWidth) (a : Addr) (bs : List Byte), w.bytes ≤ (widest inp.xlen).bytes →
      bs.length = w.bytes → a.toNat + w.bytes ≤ 2 ^ inp.xlen.bits →
      hwFoldOf inp.hw w crcInitial a bs = swFold crcInitial bs

/-- 44_self_check.md R97: what `mismatch` compares (the test vector at SC_TV_BASE, and every slice of the pattern whose offset
and length are in the two sets and which fits in the pattern), what the pattern's bytes are, and the derived facts: conforming
hardware never mismatches, pairs of length 0 never differ, and every pattern length from 318 on compares all pairs. A slice's
address is an XLEN-bit sum (log entry 9). -/
def Obligations.SelfCheckComparisonFacts : Prop :=
  (∀ inp : Inputs, mismatch inp = true ↔
    hwCrc inp inp.scTvBase [0x31, 0x32, 0x33, 0x34, 0x35, 0x36, 0x37, 0x38, 0x39] ≠
        swCrc [0x31, 0x32, 0x33, 0x34, 0x35, 0x36, 0x37, 0x38, 0x39] ∨
      ∃ o ∈ ([0, 1, 2, 3, 4, 7, 8, 15, 31, 63] : List Nat),
        ∃ l ∈ ([0, 1, 2, 3, 4, 7, 8, 15, 16, 31, 32, 63, 64, 255] : List Nat),
          o + l ≤ inp.scPatternLen ∧
            hwCrc inp (BitVec.ofNat 64 ((inp.scPatternBase.toNat + o) % 2 ^ inp.xlen.bits)) (patSlice o l) ≠
              swCrc (patSlice o l)) ∧
  (∀ o l : Nat, (patSlice o l).length = l ∧
    ∀ i < l, (patSlice o l)[i]? = some (BitVec.ofNat 8 ((3 * (o + i) + 1) % 256))) ∧
  (∀ inp : Inputs, HwConforms (hwFoldOf inp.hw) → mismatch inp = false) ∧
  (∀ (inp : Inputs) (o : Nat), sliceDiffers inp o 0 = false) ∧
  (∀ (inp : Inputs) (a : Addr) (o : Nat), hwCrc inp a (patSlice o 0) = swCrc (patSlice o 0)) ∧
  (∀ o ∈ ([0, 1, 2, 3, 4, 7, 8, 15, 31, 63] : List Nat),
    ∀ l ∈ ([0, 1, 2, 3, 4, 7, 8, 15, 16, 31, 32, 63, 64, 255] : List Nat), o + l ≤ 318) ∧
  ∀ (inp : Inputs) (n : Nat), 318 ≤ n → mismatch { inp with scPatternLen := n } = mismatch { inp with scPatternLen := 318 }

/-! ### Host memory -/

/-- 20_memory.md R33: MemRead. -/
def Obligations.MemReadGivesTheBytesOrTheLowestFault : Prop :=
  (∀ m : Memory, Memory.get m 0 = none) ∧
  (∀ (m : Memory) (x : Xlen) (a : Addr), Memory.read m x a 0 = .ok []) ∧
  (∀ (m : Memory) (x : Xlen) (a : Addr) (n : Nat), 0 < n → 2 ^ x.bits < a.toNat + n →
    Memory.read m x a n = .error (.memFault a)) ∧
  (∀ (m : Memory) (x : Xlen) (a : Addr) (n : Nat) (bs : List Byte), 0 < n → a.toNat + n ≤ 2 ^ x.bits →
    bs.length = n → (∀ i < n, Memory.get m (a.toNat + i) = bs[i]?) → Memory.read m x a n = .ok bs) ∧
  ∀ (m : Memory) (x : Xlen) (a : Addr) (n k : Nat), a.toNat + n ≤ 2 ^ x.bits → k < n →
    (∀ i < k, Memory.get m (a.toNat + i) ≠ none) → Memory.get m (a.toNat + k) = none →
    Memory.read m x a n = .error (.memFault (a + BitVec.ofNat 64 k))

/-- 20_memory.md R34, R35, R43, 10_state.md R26: a step writes no host memory and no input: every byte reads as before, and
inputs, number of ports and streams stay. -/
def Obligations.StepsWriteNoMemoryAndNoInput : Prop :=
  ∀ s t : State, step s = .next t →
    t.mem = s.mem ∧ (∀ a, Memory.get t.mem a = Memory.get s.mem a) ∧ t.inp = s.inp ∧
    t.ports.length = s.ports.length ∧ t.ports.map Port.stream = s.ports.map Port.stream

/-! ### Encoding -/

/-- 30_encoding.md R46 to R51: decoding the words of a well-formed command gives that command, whatever words follow. -/
def Obligations.DecodeOfEncodeIsTheCommand : Prop :=
  ∀ (inp : Inputs) (i : Instr) (rest : List Word), i.wellFormed inp = true → decode inp (encode i ++ rest) = .ok i

/-- 30_encoding.md R51, R54: only the words of a well-formed command decode to it. -/
def Obligations.DecodedWordsAreTheEncoding : Prop :=
  ∀ (inp : Inputs) (ws : List Word) (i : Instr), decode inp ws = .ok i →
    i.wellFormed inp = true ∧ ∃ rest, ws = encode i ++ rest

/-- 30_encoding.md R52, R53: the illegal encodings and the conditionally illegal ones. -/
def Obligations.IllegalEncodingsAreRefused : Prop :=
  (∀ (inp : Inputs) (w : Word) (ext : List Word), w.extractLsb' 8 24 ≠ 0 →
    decode inp (w :: ext) = .error .reservedBits) ∧
  (∀ (inp : Inputs) (w : Word) (ext : List Word), w.toNat < 256 →
    w.toNat ∉ [0x01, 0x02, 0x03, 0x04, 0x10, 0x11, 0x12, 0x13, 0x14, 0x20, 0x21, 0x22, 0x23, 0x24, 0x30, 0x40, 0x41,
      0x42, 0x50] → decode inp (w :: ext) = .error .reservedOpcode) ∧
  (∀ (inp : Inputs) (w lo : Word), w = 0x01 ∨ w = 0x02 →
    decode inp [w] = .error .truncated ∧ decode inp [w, lo] = .error .truncated) ∧
  (∀ inp : Inputs, decode inp [0x03] = .error .truncated) ∧
  (∀ (inp : Inputs) (w lo hi : Word) (ext : List Word), w = 0x01 ∨ w = 0x02 → inp.xlen = .x32 → hi ≠ 0 →
    decode inp (w :: lo :: hi :: ext) = .error .wideImmediate) ∧
  (∀ (inp : Inputs) (w : Word) (ext : List Word), w ∈ [0x20, 0x21, 0x22, 0x23] → inp.hwPath = false →
    decode inp (w :: ext) = .error .noHwPath) ∧
  (∀ (inp : Inputs) (ext : List Word), inp.hwPath = true → inp.xlen = .x32 →
    decode inp (0x23 :: ext) = .error .noWideChunk) ∧
  ∀ (inp : Inputs) (ext : List Word), decode inp (0x24 :: ext) = .ok .hwCrc

/-- 95_test_vectors.md sections 2.9 and 2.10: a few words decode to the commands they spell. -/
def Obligations.ListedWordsDecodeAsTheSpecSays : Prop :=
  decode Inputs.default [0x00000001, 0x00000010, 0xFFFFFFFF] = .ok (.lda 0xFFFFFFFF00000010) ∧
  decode Inputs.default [0x00000002, 0x00000009, 0x00000000] = .ok (.ldl 9) ∧
  decode Inputs.default [0x00000003, 0xFFFFFFCE] = .ok (.ldc 0xFFFFFFCE) ∧
  decode Inputs.default [0x00000040] = .ok .csum ∧
  decode Inputs.default [0x00000140] = .error .reservedBits

/-! ### Fetching, scheduling and ending -/

/-- 30_encoding.md R45, 10_state.md R13: the step of a scheduled port executes the command its words decode to. Around `exec`
the step only records the port and uses up the scheduler's choice (the model's own fields, log entry 1). -/
def Obligations.StepRunsTheDecodedCommand : Prop :=
  ∀ (s : State) (n : Nat) (p : Port) (i : Instr), s.pick = some n → s.ports[n]? = some p →
    decode s.inp (p.stream.drop p.pc.toNat) = .ok i →
    step s = exec i { s with cur := n, sched := s.sched.tail, tick := s.tick + 1 }

/-- 60_exceptions.md R105, 30_encoding.md R48: words that spell no command raise ILLEGAL_CMD at fetch, with word 0 recorded. -/
def Obligations.UndecodableWordsRaiseIllegalCmd : Prop :=
  ∀ (s : State) (n : Nat) (p : Port) (w : Word) (e : DecodeError), s.pick = some n → s.ports[n]? = some p →
    p.stream[p.pc.toNat]? = some w → decode s.inp (p.stream.drop p.pc.toNat) = .error e →
    step s = .next { s with
      cur := n
      sched := s.sched.tail
      tick := s.tick + 1
      ports := s.ports.set n
        { p with faulted := true, err := .illegalCmd, faultPc := p.pc, faultCmd := w } }

/-- 30_encoding.md R45, 43_dispatch.md R86, 60_exceptions.md R111: which ports have an enabled step. -/
def Obligations.EnabledPortsAreThoseThatCanStep : Prop :=
  ∀ (s : State) (n : Nat), s.enabled n = true ↔
    ∃ p, s.ports[n]? = some p ∧ p.faulted = false ∧ p.pc.toNat < p.stream.length ∧
      ¬ (s.init = .busy ∧ s.initOwner.toNat ≠ n ∧
        ∃ i, decode s.inp (p.stream.drop p.pc.toNat) = .ok i ∧
          (i = .csum ∨ i = .name ∨ i = .selfcheck ∨ (i = .forcesw ∧ p.ph ≠ .ready)))

/-- 10_state.md R13: any port with an enabled step may be scheduled at any step, and no other port is. -/
def Obligations.AnyEnabledPortMayTakeTheNextStep : Prop :=
  (∀ (s : State) (n : Nat), s.enabled n = true → ∃ k, ({ s with sched := k :: s.sched } : State).pick = some n) ∧
  ∀ (s : State) (n : Nat), s.pick = some n → s.enabled n = true

/-- 70_reset_and_hazards.md R125, 60_exceptions.md R111: the model's step stops where no port has an enabled step, and says
whether that is the end state. The two names of the stop are the model's (log entry 12). -/
def Obligations.StepStopsWhereNoPortIsEnabled : Prop :=
  ∀ s : State, (∀ n, s.enabled n = false) →
    ((∀ p ∈ s.ports, p.pc.toNat = p.stream.length ∧ p.ph = .ready ∧ p.faulted = false) →
      step s = .fault .runEnded) ∧
    (¬ (∀ p ∈ s.ports, p.pc.toNat = p.stream.length ∧ p.ph = .ready ∧ p.faulted = false) →
      step s = .fault .stuck)

/-- 43_dispatch.md R86, 70_reset_and_hazards.md R126: in a state that keeps the dispatch invariant, any enabled step leads to
a next state: no command stops the machine. -/
def Obligations.EveryEnabledStepHasANextState : Prop :=
  ∀ s : State, DispatchInv s → (∃ n, s.enabled n = true) → ∃ t, step s = .next t

/-- 43_dispatch.md R86, 70_reset_and_hazards.md R126, 60_exceptions.md R114: INIT's owner always has its step enabled, that
step takes no fault, and while some unfaulted port has commands left some port has an enabled step: no deadlock. -/
def Obligations.TheOwnerStepsAndNothingDeadlocks : Prop :=
  (∀ s : State, DispatchInv s → s.init = .busy → s.enabled s.initOwner.toNat = true) ∧
  (∀ s t : State, DispatchInv s → s.init = .busy → s.pick = some s.initOwner.toNat → step s = .next t →
    ∃ q, t.ports[s.initOwner.toNat]? = some q ∧ q.faulted = false) ∧
  ∀ (s : State) (n : Nat) (p : Port), DispatchInv s → s.ports[n]? = some p → p.faulted = false →
    p.pc.toNat < p.stream.length → ∃ m, s.enabled m = true

/-- 70_reset_and_hazards.md R126: a run takes at most 2 + the sum of 2·n_p steps, and it stops in an end state or with a
faulted port. -/
def Obligations.RunsTakeAtMostTwoStepsACommandAndTwo : Prop :=
  ∀ (inp : Inputs) (m : Memory) (streams : List (List Word)) (sched : List Nat) (draws : List Engine),
    CapNeedsPath inp → streams.length ≤ 256 → StreamsFit streams →
    ∃ (k : Nat) (t : State), k ≤ stepBound inp streams ∧
      Host.Core.run Sys2Proof.core k { State.launch inp m streams with sched := sched, draws := draws } = .next t ∧
      (∀ n, t.enabled n = false) ∧ (t.endState = true ∨ ∃ p ∈ t.ports, p.faulted = true)

/-! ### Port faults -/

/-- 60_exceptions.md R111: fault entry writes the fault record of the executing port, FAULT_ADDR only for MEM_FAULT, and
nothing else; the port then has no enabled step and the state is no end state. -/
def Obligations.FaultEntryWritesTheRecordOnly : Prop :=
  ∀ (s : State) (p : Port) (w : Word), s.ports[s.cur]? = some p → p.stream[p.pc.toNat]? = some w →
    (∀ (e : Trap) (code : ErrCode),
      (e, code) ∈ [(Trap.illegalCmd, ErrCode.illegalCmd), (.hwUnsupported, .hwUnsupported), (.uninitReg, .uninitReg),
        (.lenUnderflow, .lenUnderflow)] →
      s.raise e = { s with
        ports := s.ports.set s.cur
          { p with faulted := true, err := code, faultPc := p.pc, faultCmd := w } }) ∧
    (∀ a : Addr, s.raise (.memFault a) = { s with
      ports := s.ports.set s.cur
        { p with faulted := true, err := .memFault, faultPc := p.pc, faultCmd := w, faultAddr := some a } }) ∧
    ∀ e : Trap, (s.raise e).enabled s.cur = false ∧ (s.raise e).endState = false

/-- 60_exceptions.md R111: a command that gives a next state either takes a fault, and then that is all it does, or leaves the
fault record alone. -/
def Obligations.CommandsFaultWholeOrNotAtAll : Prop :=
  ∀ (i : Instr) (s t : State) (p : Port), s.ports[s.cur]? = some p → exec i s = .next t →
    (∃ e, t = s.raise e) ∨
    ∃ q, t.ports[s.cur]? = some q ∧ q.faulted = p.faulted ∧ q.err = p.err ∧ q.faultPc = p.faultPc ∧
      q.faultCmd = p.faultCmd ∧ q.faultAddr = p.faultAddr

/-! ### Operand transfer -/

/-- 45_operand_transfer.md R99, R100, 30_encoding.md R50: LDA and LDL. The last clause, about an immediate that no words
spell, is the model's own: `exec` checks again what the decoder has checked (log entry 10). -/
def Obligations.LdaAndLdlSetTheBuffer : Prop :=
  (∀ (s : State) (p : Port) (imm : Addr), s.ports[s.cur]? = some p → imm.toNat < 2 ^ s.inp.xlen.bits →
    exec (.lda imm) s = .next { s with ports := s.ports.set s.cur { p with addr := some imm, pc := p.pc + 3 } } ∧
    exec (.ldl imm) s = .next { s with ports := s.ports.set s.cur { p with len := some imm, pc := p.pc + 3 } }) ∧
  (∀ (inp : Inputs) (lo hi : Word) (ext : List Word), inp.xlen = .x64 →
    decode inp (0x01 :: lo :: hi :: ext) = .ok (.lda (hi ++ lo)) ∧
    decode inp (0x02 :: lo :: hi :: ext) = .ok (.ldl (hi ++ lo))) ∧
  (∀ (inp : Inputs) (lo : Word) (ext : List Word), inp.xlen = .x32 →
    decode inp (0x01 :: lo :: 0 :: ext) = .ok (.lda (lo.setWidth 64)) ∧
    decode inp (0x02 :: lo :: 0 :: ext) = .ok (.ldl (lo.setWidth 64))) ∧
  (∀ (inp : Inputs) (w lo : Word), w = 0x01 ∨ w = 0x02 →
    decode inp [w] = .error .truncated ∧ decode inp [w, lo] = .error .truncated) ∧
  (∀ (inp : Inputs) (w lo hi : Word) (ext : List Word), w = 0x01 ∨ w = 0x02 → inp.xlen = .x32 → hi ≠ 0 →
    decode inp (w :: lo :: hi :: ext) = .error .wideImmediate) ∧
  ∀ (s : State) (imm : Addr), 2 ^ s.inp.xlen.bits ≤ imm.toNat →
    exec (.lda imm) s = .next (s.raise .illegalCmd) ∧ exec (.ldl imm) s = .next (s.raise .illegalCmd)

/-- 45_operand_transfer.md R101, R102: LDC and GETC. -/
def Obligations.LdcAndGetcMoveTheAccumulator : Prop :=
  (∀ (s : State) (p : Port) (imm : Word), s.ports[s.cur]? = some p →
    exec (.ldc imm) s = .next { s with ports := s.ports.set s.cur { p with c := some imm, pc := p.pc + 2 } }) ∧
  (∀ (inp : Inputs) (imm : Word) (ext : List Word), decode inp (0x03 :: imm :: ext) = .ok (.ldc imm)) ∧
  (∀ inp : Inputs, decode inp [0x03] = .error .truncated) ∧
  (∀ (s : State) (p : Port) (c : Word), s.ports[s.cur]? = some p → p.c = some c →
    exec .getc s = .next { s with ports := s.ports.set s.cur { p with r := some c, pc := p.pc + 1 } }) ∧
  (∀ (s : State) (p : Port), s.ports[s.cur]? = some p → p.c = none → exec .getc s = .next (s.raise .uninitReg)) ∧
  ∀ (inp : Inputs) (ext : List Word), decode inp (0x04 :: ext) = .ok .getc

/-! ### The software engine -/

/-- 40_sw_engine.md R61, R62, R65: CRC.INIT, SW.STEP, CRC.FINAL. -/
def Obligations.AccumulatorCommandsFollowTheirRules : Prop :=
  (∀ (s : State) (p : Port), s.ports[s.cur]? = some p →
    exec .crcInit s = .next { s with ports := s.ports.set s.cur { p with c := some 0xFFFFFFFF, pc := p.pc + 1 } }) ∧
  (∀ (s : State) (p : Port) (c : Word), s.ports[s.cur]? = some p → p.c = some c →
    exec .swStep s = .next { s with
      ports := s.ports.set s.cur
        { p with c := some ((c >>> 1) ^^^ (if c.getLsbD 0 then 0x82F63B78 else 0)), pc := p.pc + 1 } }) ∧
  (∀ (s : State) (p : Port) (c : Word), s.ports[s.cur]? = some p → p.c = some c →
    exec .crcFinal s = .next { s with
      ports := s.ports.set s.cur
        { p with r := some (c ^^^ 0xFFFFFFFF), pc := p.pc + 1 } }) ∧
  (∀ (s : State) (p : Port), s.ports[s.cur]? = some p → p.c = none →
    exec .swStep s = .next (s.raise .uninitReg) ∧ exec .crcFinal s = .next (s.raise .uninitReg)) ∧
  ∀ (inp : Inputs) (ext : List Word),
    decode inp (0x10 :: ext) = .ok .crcInit ∧ decode inp (0x11 :: ext) = .ok .swStep ∧
    decode inp (0x14 :: ext) = .ok .crcFinal

/-- 40_sw_engine.md R63: SW.BYTE, with the priority of its faults. -/
def Obligations.SwByteFoldsOneBufferByte : Prop :=
  (∀ (s : State) (p : Port) (c : Word) (a n : Addr) (b : Byte), s.ports[s.cur]? = some p →
    p.c = some c → p.addr = some a → p.len = some n → 1 ≤ n.toNat → Memory.read s.mem s.inp.xlen a 1 = .ok [b] →
    exec .swByte s = .next { s with
      ports := s.ports.set s.cur
        { p with
        c := some (swByte c b)
        addr := some (BitVec.ofNat 64 ((a.toNat + 1) % 2 ^ s.inp.xlen.bits))
        len := some (n - 1)
        pc := p.pc + 1 } }) ∧
  (∀ (s : State) (p : Port), s.ports[s.cur]? = some p → p.c = none ∨ p.addr = none ∨ p.len = none →
    exec .swByte s = .next (s.raise .uninitReg)) ∧
  (∀ (s : State) (p : Port) (c : Word) (a n : Addr), s.ports[s.cur]? = some p →
    p.c = some c → p.addr = some a → p.len = some n → n.toNat < 1 →
    exec .swByte s = .next (s.raise .lenUnderflow)) ∧
  (∀ (s : State) (p : Port) (c : Word) (a n : Addr) (e : Trap), s.ports[s.cur]? = some p →
    p.c = some c → p.addr = some a → p.len = some n → 1 ≤ n.toNat → Memory.read s.mem s.inp.xlen a 1 = .error e →
    exec .swByte s = .next (s.raise e)) ∧
  ∀ (inp : Inputs) (ext : List Word), decode inp (0x12 :: ext) = .ok .swByte

/-- 40_sw_engine.md R64: SW.CRC over a whole buffer; a buffer of length 0 needs no address and reads nothing. -/
def Obligations.SwCrcGivesTheSoftwareChecksum : Prop :=
  (∀ (s : State) (p : Port), s.ports[s.cur]? = some p → p.len = some 0 →
    exec .swCrc s = .next { s with ports := s.ports.set s.cur { p with r := some 0, pc := p.pc + 1 } }) ∧
  (∀ (s : State) (p : Port) (a n : Addr) (bs : List Byte), s.ports[s.cur]? = some p → p.len = some n → n ≠ 0 →
    p.addr = some a → Memory.read s.mem s.inp.xlen a n.toNat = .ok bs →
    exec .swCrc s = .next { s with ports := s.ports.set s.cur { p with r := some (swCrc bs), pc := p.pc + 1 } }) ∧
  (∀ (s : State) (p : Port), s.ports[s.cur]? = some p → p.len = none ∨ (p.len ≠ some 0 ∧ p.addr = none) →
    exec .swCrc s = .next (s.raise .uninitReg)) ∧
  (∀ (s : State) (p : Port) (a n : Addr) (e : Trap), s.ports[s.cur]? = some p → p.len = some n → n ≠ 0 →
    p.addr = some a → Memory.read s.mem s.inp.xlen a n.toNat = .error e →
    exec .swCrc s = .next (s.raise e)) ∧
  ∀ (inp : Inputs) (ext : List Word), decode inp (0x13 :: ext) = .ok .swCrc

/-- 40_sw_engine.md R66: CRC.INIT, SW.BYTE once for each byte of a readable buffer, then CRC.FINAL, leave in R the value that
SW.CRC leaves for the same buffer. -/
def Obligations.BytewiseFoldingEqualsSwCrc : Prop :=
  ∀ (s : State) (p : Port) (a n : Addr) (bs : List Byte), s.ports[s.cur]? = some p → p.addr = some a →
    p.len = some n → Memory.read s.mem s.inp.xlen a n.toNat = .ok bs →
    ∃ t u q v, execAll ([.crcInit] ++ List.replicate n.toNat .swByte ++ [.crcFinal]) s = .next t ∧
      t.ports[s.cur]? = some q ∧ exec .swCrc s = .next u ∧ u.ports[s.cur]? = some v ∧
      q.r = some (swCrc bs) ∧ v.r = q.r

/-! ### The hardware engine -/

/-- 41_hw_engine.md R74 to R77, 60_exceptions.md R110: HW.U8, HW.U16, HW.U32 and HW.U64: the chunk they fold where they
execute normally, and their faults in their priority. -/
def Obligations.ChunkCommandsFollowTheTemplate : Prop :=
  ∀ (i : Instr) (w : ChunkWidth) (k : Nat) (word : Word),
    (i, w, k, word) ∈ [(Instr.hwU8, ChunkWidth.w1, 1, (0x20 : Word)), (.hwU16, .w2, 2, 0x21), (.hwU32, .w4, 4, 0x22),
      (.hwU64, .w8, 8, 0x23)] →
    (∀ (s : State) (p : Port), s.ports[s.cur]? = some p →
      (s.inp.hwPath = false ∨ (w = .w8 ∧ s.inp.xlen = .x32) → exec i s = .next (s.raise .illegalCmd)) ∧
      (s.inp.hwPath = true → (w = .w8 → s.inp.xlen = .x64) →
        (s.inp.cap = false → exec i s = .next (s.raise .hwUnsupported)) ∧
        (s.inp.cap = true →
          (p.c = none ∨ p.addr = none ∨ p.len = none → exec i s = .next (s.raise .uninitReg)) ∧
          ∀ (c : Word) (a n : Addr), p.c = some c → p.addr = some a → p.len = some n →
            (n.toNat < k → exec i s = .next (s.raise .lenUnderflow)) ∧
            (∀ e, k ≤ n.toNat → Memory.read s.mem s.inp.xlen a k = .error e → exec i s = .next (s.raise e)) ∧
            ∀ bs, k ≤ n.toNat → Memory.read s.mem s.inp.xlen a k = .ok bs →
              exec i s = .next { s with
                ports := s.ports.set s.cur
                  { p with
                  c := some (hwFoldOf s.inp.hw w c a bs)
                  addr := some (BitVec.ofNat 64 ((a.toNat + k) % 2 ^ s.inp.xlen.bits))
                  len := some (BitVec.ofNat 64 (n.toNat - k))
                  pc := p.pc + 1 } }))) ∧
    (∀ (inp : Inputs) (ext : List Word), inp.hwPath = true → (w = .w8 → inp.xlen = .x64) →
      decode inp (word :: ext) = .ok i) ∧
    (∀ (inp : Inputs) (ext : List Word), inp.hwPath = false → decode inp (word :: ext) = .error .noHwPath) ∧
    ∀ (inp : Inputs) (ext : List Word), inp.hwPath = true → w = .w8 → inp.xlen = .x32 →
      decode inp (word :: ext) = .error .noWideChunk

/-- 41_hw_engine.md R78, R73: HW.CRC, and its faults in their priority. -/
def Obligations.HwCrcRunsTheHardwareEngine : Prop :=
  (∀ (s : State) (p : Port), s.ports[s.cur]? = some p → s.inp.hwPath = true → s.inp.cap = false →
    exec .hwCrc s = .next (s.raise .hwUnsupported)) ∧
  (∀ (s : State) (p : Port), s.ports[s.cur]? = some p → s.inp.hwPath = false ∨ s.inp.cap = true →
    (p.len = some 0 →
      exec .hwCrc s = .next { s with ports := s.ports.set s.cur { p with r := some 0, pc := p.pc + 1 } }) ∧
    (p.len = none ∨ (p.len ≠ some 0 ∧ p.addr = none) → exec .hwCrc s = .next (s.raise .uninitReg)) ∧
    ∀ a n : Addr, p.len = some n → n ≠ 0 → p.addr = some a →
      (∀ bs, Memory.read s.mem s.inp.xlen a n.toNat = .ok bs →
        exec .hwCrc s = .next { s with
          ports := s.ports.set s.cur
            { p with r := some (hwCrc s.inp a bs), pc := p.pc + 1 } }) ∧
      ∀ e, Memory.read s.mem s.inp.xlen a n.toNat = .error e → exec .hwCrc s = .next (s.raise e)) ∧
  ∀ (inp : Inputs) (ext : List Word), decode inp (0x24 :: ext) = .ok .hwCrc

/-- 30_encoding.md R56: the expansion of HWRUN computes what HW.CRC computes, for every HWFOLD. -/
def Obligations.HwRunExpansionEqualsHwCrc : Prop :=
  ∀ (s : State) (p : Port) (a n : Addr) (bs : List Byte), s.ports[s.cur]? = some p → s.inp.xlen = .x64 →
    s.inp.hwPath = true → s.inp.cap = true → p.addr = some a → p.len = some n →
    Memory.read s.mem s.inp.xlen a n.toNat = .ok bs →
    ∃ t u q v, execAll (pseudoHwRun n.toNat) s = .next t ∧ t.ports[s.cur]? = some q ∧
      exec .hwCrc s = .next u ∧ u.ports[s.cur]? = some v ∧ q.r = some (hwCrc s.inp a bs) ∧ v.r = q.r

/-! ### Capability -/

/-- 42_capability.md R80: HWAVAIL passes CAP through, whatever the dispatch state. -/
def Obligations.HwavailPassesCapThrough : Prop :=
  (∀ (s : State) (p : Port), s.ports[s.cur]? = some p →
    exec .hwavail s = .next { s with
      ports := s.ports.set s.cur
        { p with r := some (if s.inp.cap then 0x00000001 else 0x00000000), pc := p.pc + 1 } }) ∧
  ∀ (inp : Inputs) (ext : List Word), decode inp (0x30 :: ext) = .ok .hwavail

/-! ### The dispatcher -/

/-- 43_dispatch.md R83: the decision function. -/
def Obligations.DecisionFollowsOverrideThenCapability : Prop :=
  ∀ (force cap : Bool) (env : Env),
    (force = true ∨ env = .sw → decideSel force env cap = .sw) ∧
    (force = false → env ≠ .sw → cap = true → decideSel force env cap = .hw) ∧
    (force = false → env ≠ .sw → cap = false → decideSel force env cap = .sw)

/-- 43_dispatch.md R84, R85, R86: the initialization protocol before the body of a dispatch-triggering command. FORCESW takes
part after its flag step. That a held port asked to execute stops under a name of its own is the model's (log entry 11). -/
def Obligations.DispatchCommandsInitializeFirst : Prop :=
  ∀ (i : Instr) (s : State) (p : Port), s.ports[s.cur]? = some p →
    i = .csum ∨ i = .name ∨ i = .selfcheck ∨ (i = .forcesw ∧ p.ph = .forceSet) →
    (s.init = .none → exec i s = .next { s with init := .busy, initOwner := BitVec.ofNat 8 s.cur }) ∧
    (s.init = .busy → s.initOwner.toNat = s.cur →
      exec i s = .next { s with
        sel := decideSel s.force s.inp.env s.inp.cap
        force := if s.inp.env = .sw then true else s.force
        init := .done
        initOwner := 0 }) ∧
    (s.init = .busy → s.initOwner.toNat ≠ s.cur → exec i s = .fault .held)

/-- 43_dispatch.md R88, R89: CSUM's body after initialization, and its faults. The draw is the tape's choice, or the free
choice of the step where the tape is empty: either engine may be drawn (log entry 2). -/
def Obligations.CsumRunsTheSelectedEngine : Prop :=
  (∀ (s : State) (p : Port) (bs : List Byte) (a : Addr) (e : Engine), s.ports[s.cur]? = some p → s.init = .done →
    (p.len = some 0 ∧ bs = [] ∨
      ∃ n, p.len = some n ∧ n ≠ 0 ∧ p.addr = some a ∧ Memory.read s.mem s.inp.xlen a n.toNat = .ok bs) →
    (s.sel = .hw ∧ e = .hw ∨ s.sel ≠ .hw ∧ p.stale = false ∧ e = .sw) →
    exec .csum s = .next { s with
      ports := s.ports.set s.cur
        { p with r := some (if e = .hw then hwCrc s.inp a bs else swCrc bs), stale := false, pc := p.pc + 1 } }) ∧
  (∀ (s : State) (p : Port) (bs : List Byte) (a : Addr) (e : Engine) (rest : List Engine),
    s.ports[s.cur]? = some p → s.init = .done →
    (p.len = some 0 ∧ bs = [] ∨
      ∃ n, p.len = some n ∧ n ≠ 0 ∧ p.addr = some a ∧ Memory.read s.mem s.inp.xlen a n.toNat = .ok bs) →
    s.sel ≠ .hw → p.stale = true → (s.draws = e :: rest ∨ s.draws = [] ∧ rest = [] ∧ e = Config.staleDraw s.tick) →
    exec .csum s = .next { s with
      draws := rest
      ports := s.ports.set s.cur
        { p with r := some (if e = .hw then hwCrc s.inp a bs else swCrc bs), stale := false, pc := p.pc + 1 } }) ∧
  (∀ (s : State) (p : Port), s.ports[s.cur]? = some p → s.init = .done →
    (p.len = none ∨ (p.len ≠ some 0 ∧ p.addr = none) → exec .csum s = .next (s.raise .uninitReg)) ∧
    ∀ (a n : Addr) (e : Trap), p.len = some n → n ≠ 0 → p.addr = some a →
      Memory.read s.mem s.inp.xlen a n.toNat = .error e → exec .csum s = .next (s.raise e)) ∧
  ∀ (inp : Inputs) (ext : List Word), decode inp (0x40 :: ext) = .ok .csum

/-- 43_dispatch.md R89: under HW_CONFORMS the stale allowance changes no value: CSUM leaves the software checksum in R
whichever engine runs. -/
def Obligations.CsumValueIsTheSoftwareChecksumOnConformingHardware : Prop :=
  ∀ (s : State) (p : Port) (a n : Addr) (bs : List Byte), s.ports[s.cur]? = some p → s.init = .done →
    HwConforms (hwFoldOf s.inp.hw) → p.len = some n → p.addr = some a →
    Memory.read s.mem s.inp.xlen a n.toNat = .ok bs →
    ∃ t q, exec .csum s = .next t ∧ t.ports[s.cur]? = some q ∧ q.r = some (swCrc bs) ∧ q.stale = false

/-- 43_dispatch.md R93: after initialization CSUM reads neither CAP nor ENV nor FORCE, since changing them changes nothing else
in what it does, and it takes no claim step: the shared dispatch state stays. -/
def Obligations.CsumReadsOnlyTheCachedDecision : Prop :=
  ∀ (s t : State) (force cap : Bool) (env : Env), s.init = .done → exec .csum s = .next t →
    exec .csum { s with force := force, inp := { s.inp with cap := cap, env := env } } =
      .next { t with force := force, inp := { t.inp with cap := cap, env := env } } ∧
    t.init = .done ∧ t.initOwner = s.initOwner ∧ t.sel = s.sel ∧ t.force = s.force

/-- 43_dispatch.md R90: NAME's body after initialization. -/
def Obligations.NameReportsTheSelector : Prop :=
  (∀ (s : State) (p : Port), s.ports[s.cur]? = some p → s.init = .done →
    exec .name s = .next { s with
      ports := s.ports.set s.cur
        { p with r := some (if s.sel = .hw then 0x00007768 else 0x00007773), stale := false, pc := p.pc + 1 } }) ∧
  ∀ (inp : Inputs) (ext : List Word), decode inp (0x41 :: ext) = .ok .name

/-- 43_dispatch.md R91, R89: FORCESW's flag step, whatever INIT holds, and its body after initialization, which sets STALE at
every other port when SEL was HW. -/
def Obligations.ForceswSetsTheFlagThenTheSelector : Prop :=
  (∀ (s : State) (p : Port), s.ports[s.cur]? = some p → p.ph = .ready →
    exec .forcesw s = .next { s with force := true, ports := s.ports.set s.cur { p with ph := .forceSet } }) ∧
  (∀ (s : State) (p : Port), s.ports[s.cur]? = some p → p.ph = .forceSet → s.init = .done →
    ∃ t, exec .forcesw s = .next t ∧
      t = { s with force := true, sel := .sw, ports := t.ports } ∧
      t.ports[s.cur]? = some { p with stale := false, ph := .ready, pc := p.pc + 1 } ∧
      ∀ m q, m ≠ s.cur → s.ports[m]? = some q →
        t.ports[m]? = some (if s.sel = .hw then { q with stale := true } else q)) ∧
  ∀ (inp : Inputs) (ext : List Word), decode inp (0x42 :: ext) = .ok .forcesw

/-! ### The self-check -/

/-- 44_self_check.md R95, R96: the first body step of SELFCHECK after initialization. -/
def Obligations.SelfcheckFirstBodyStep : Prop :=
  (∀ (s : State) (p : Port), s.ports[s.cur]? = some p → s.init = .done → p.ph = .ready → s.sel ≠ .hw →
    exec .selfcheck s = .next { s with
      ports := s.ports.set s.cur
        { p with r := some 0, scs := .nothingToCheck, stale := false, pc := p.pc + 1 } }) ∧
  (∀ (s : State) (p : Port), s.ports[s.cur]? = some p → s.init = .done → p.ph = .ready → s.sel = .hw →
    exec .selfcheck s = .next { s with
      ports := s.ports.set s.cur
        { p with ph := if mismatch s.inp then .scMismatch else .scMatch, stale := false } }) ∧
  ∀ (inp : Inputs) (ext : List Word), decode inp (0x50 :: ext) = .ok .selfcheck

/-- 44_self_check.md R98: the second body step of SELFCHECK. -/
def Obligations.SelfcheckSecondBodyStep : Prop :=
  (∀ (s : State) (p : Port), s.ports[s.cur]? = some p → s.init = .done → p.ph = .scMatch →
    exec .selfcheck s = .next { s with
      ports := s.ports.set s.cur
        { p with r := some 0, scs := .success, ph := .ready, pc := p.pc + 1 } }) ∧
  ∀ (s : State) (p : Port), s.ports[s.cur]? = some p → s.init = .done → p.ph = .scMismatch →
    ∃ t, exec .selfcheck s = .next t ∧
      t = { s with force := true, sel := .sw, ports := t.ports } ∧
      t.ports[s.cur]? = some { p with r := some 1, scs := .failure, ph := .ready, pc := p.pc + 1 } ∧
      ∀ m q, m ≠ s.cur → s.ports[m]? = some q →
        t.ports[m]? = some (if s.sel = .hw then { q with stale := true } else q)

/-! ### Frames -/

/-- 10_state.md R14, R18, R19, R20 (the "written by" columns): each register and status field of the executing port is
unchanged but for the commands that write it, and its stream is an input. -/
def Obligations.CommandsWriteOnlyTheirRegisters : Prop :=
  ∀ (i : Instr) (s t : State) (p q : Port), s.ports[s.cur]? = some p → exec i s = .next t →
    t.ports[s.cur]? = some q →
    (q.addr = p.addr ∨ i ∈ [Instr.swByte, .hwU8, .hwU16, .hwU32, .hwU64] ∨ ∃ v, i = .lda v) ∧
    (q.len = p.len ∨ i ∈ [Instr.swByte, .hwU8, .hwU16, .hwU32, .hwU64] ∨ ∃ v, i = .ldl v) ∧
    (q.c = p.c ∨ i ∈ [Instr.crcInit, .swStep, .swByte, .hwU8, .hwU16, .hwU32, .hwU64] ∨ ∃ v, i = .ldc v) ∧
    (q.r = p.r ∨ i ∈ [Instr.getc, .crcFinal, .swCrc, .hwCrc, .hwavail, .csum, .name, .selfcheck]) ∧
    (q.ph = p.ph ∨ i ∈ [Instr.forcesw, .selfcheck]) ∧
    (q.stale = p.stale ∨ i ∈ [Instr.csum, .name, .forcesw, .selfcheck]) ∧
    (q.scs = p.scs ∨ i = .selfcheck) ∧ q.stream = p.stream

/-- 60_exceptions.md R119, R114: a step of another port changes a port only by setting its STALE, which only FORCESW and
SELFCHECK do, and only when SEL was HW. -/
def Obligations.OtherPortsOnlyBecomeStale : Prop :=
  ∀ (i : Instr) (s t : State) (m : Nat) (q : Port), exec i s = .next t → m ≠ s.cur → s.ports[m]? = some q →
    t.ports.length = s.ports.length ∧
    (t.ports[m]? = some q ∨
      t.ports[m]? = some { q with stale := true } ∧ s.sel = .hw ∧ t.sel = .sw ∧ (i = .forcesw ∨ i = .selfcheck))

/-- 43_dispatch.md R81, 20_memory.md R34: an engine-level command, an operand transfer and HWAVAIL touch no shared dispatch
state, no other port, no memory and none of the model's own fields. -/
def Obligations.EngineCommandsTouchOnlyTheirPort : Prop :=
  ∀ (i : Instr) (s t : State) (p : Port), i ∉ [Instr.csum, .name, .forcesw, .selfcheck] →
    s.ports[s.cur]? = some p → exec i s = .next t →
    (∀ a, Memory.get t.mem a = Memory.get s.mem a) ∧
    ∃ q, t = { s with ports := s.ports.set s.cur q } ∧ q.ph = p.ph ∧ q.stale = p.stale ∧ q.scs = p.scs

/-- 43_dispatch.md R84, R88 to R91, 44_self_check.md R94: the frame of the dispatch-triggering commands: memory, inputs, the
accumulator and the buffer registers stay; SEL, INIT and INIT_OWNER change only as the protocol, FORCESW and a failing
SELFCHECK say. -/
def Obligations.DispatchCommandsFrame : Prop :=
  ∀ (i : Instr) (s t : State) (p q : Port), i ∈ [Instr.csum, .name, .forcesw, .selfcheck] →
    s.ports[s.cur]? = some p → exec i s = .next t → t.ports[s.cur]? = some q →
    (∀ a, Memory.get t.mem a = Memory.get s.mem a) ∧ t.mem = s.mem ∧ t.inp = s.inp ∧ t.cur = s.cur ∧
    t.sched = s.sched ∧ t.tick = s.tick ∧ (t.draws = s.draws ∨ i = .csum ∧ t.draws = s.draws.tail) ∧
    q.addr = p.addr ∧ q.len = p.len ∧ q.c = p.c ∧
    (s.init = .done → t.init = s.init ∧ t.initOwner = s.initOwner ∧
      (t.sel = s.sel ∨ t.sel = .sw ∧ (i = .forcesw ∨ i = .selfcheck)) ∧
      (t.force = s.force ∨ t.force = true ∧ (i = .forcesw ∨ i = .selfcheck))) ∧
    (s.init ≠ .done → q = p ∨ i = .forcesw ∧ q = { p with ph := .forceSet })

/-! ### Reset and invariants -/

/-- 10_state.md R30, 70_reset_and_hazards.md R122: what reset leaves, for every launch: the rows of R30's table. SEL's value
is the source's, and the others are the spec's own (92_eei_decisions.md D4, D29). -/
def Obligations.ResetLeavesTheStatedValues : Prop :=
  ∀ (inp : Inputs) (m : Memory) (streams : List (List Word)),
    (State.launch inp m streams).sel = .undecided ∧ (State.launch inp m streams).force = false ∧
    (State.launch inp m streams).init = .none ∧ (State.launch inp m streams).initOwner = 0 ∧
    (State.launch inp m streams).inp = inp ∧ (State.launch inp m streams).mem = m ∧
    (State.launch inp m streams).ports.length = streams.length ∧
    ∀ (n : Nat) (p : Port), (State.launch inp m streams).ports[n]? = some p →
      p.pc = 0 ∧ p.addr = none ∧ p.len = none ∧ p.c = none ∧ p.r = none ∧ p.ph = .ready ∧ p.stale = false ∧
      p.scs = .none ∧ p.faulted = false ∧ p.err = .none ∧ p.faultPc = 0 ∧ p.faultCmd = 0 ∧ p.faultAddr = none ∧
      streams[n]? = some p.stream

/-- The invariants hold after every launch with consistent parameters (00_scope.md R7, 10_state.md R17, R27). -/
def Obligations.InvariantsHoldAtReset : Prop :=
  ∀ (inp : Inputs) (m : Memory) (streams : List (List Word)), CapNeedsPath inp → streams.length ≤ 256 →
    StreamsFit streams →
    DispatchInv (State.launch inp m streams) ∧ RegistersFit (State.launch inp m streams) ∧
    PcWithinStream (State.launch inp m streams) ∧ FaultRecordsOk (State.launch inp m streams)

/-- 10_state.md R29: every step keeps the dispatch invariant. -/
def Obligations.StepKeepsTheDispatchInvariant : Prop :=
  ∀ s t : State, DispatchInv s → step s = .next t → DispatchInv t

/-- 10_state.md R16, R21: every step keeps ADDR, LEN and FAULT_ADDR within XLEN bits. -/
def Obligations.StepKeepsRegistersWithinXlen : Prop :=
  ∀ s t : State, RegistersFit s → step s = .next t → RegistersFit t

/-- 10_state.md R17: every step keeps PC within the stream, so PC never wraps. -/
def Obligations.StepKeepsPcWithinTheStream : Prop :=
  ∀ s t : State, PcWithinStream s → step s = .next t → PcWithinStream t

/-- 10_state.md R21, 60_exceptions.md R104, R111, R112: every step keeps the fault records in order, and once a port is
faulted nothing but its STALE ever changes. -/
def Obligations.FaultRecordsAreStickyAndInOrder : Prop :=
  (∀ s t : State, FaultRecordsOk s → step s = .next t → FaultRecordsOk t) ∧
  ∀ (s t : State) (n : Nat) (p : Port), step s = .next t → s.ports[n]? = some p → p.faulted = true →
    t.ports[n]? = some p ∨ t.ports[n]? = some { p with stale := true }

/-- 10_state.md R23, 43_dispatch.md R92 (a), (b), R85: SEL leaves UNDECIDED only in the decide step of INIT's owner, which is
the only step that writes HW; it goes from HW to SW only in FORCESW's body or SELFCHECK's failing second step; it never goes
from SW anywhere. -/
def Obligations.SelectorIsARatchet : Prop :=
  ∀ s t : State, DispatchInv s → step s = .next t →
    (s.sel = .sw → t.sel = .sw) ∧
    (s.sel = .undecided → t.sel ≠ .undecided →
      s.init = .busy ∧ s.pick = some s.initOwner.toNat ∧ t.sel = decideSel s.force s.inp.env s.inp.cap) ∧
    (s.sel = .hw → t.sel ≠ .hw → t.sel = .sw ∧ ∃ n p i, s.pick = some n ∧ s.ports[n]? = some p ∧
      decode s.inp (p.stream.drop p.pc.toNat) = .ok i ∧
      (i = .forcesw ∧ p.ph = .forceSet ∨ i = .selfcheck ∧ p.ph = .scMismatch))

/-- 10_state.md R25, 43_dispatch.md R87: INIT moves NONE → BUSY → DONE and never back, one move a step, the claim records the
claiming port, and the owner alone completes it. -/
def Obligations.InitializationHappensOnce : Prop :=
  ∀ s t : State, DispatchInv s → step s = .next t →
    (s.init = .done → t.init = .done) ∧
    (s.init = .busy → t.init = .busy ∧ t.initOwner = s.initOwner ∨
      t.init = .done ∧ s.pick = some s.initOwner.toNat) ∧
    (s.init = .none → t.init = .none ∨ t.init = .busy ∧ s.pick = some t.initOwner.toNat)

/-- 10_state.md R24: nothing clears FORCE before reset, and only FORCESW's flag step and body, a failing SELFCHECK and the
decide step under ENV = SW set it. -/
def Obligations.ForceFlagIsStickyAndSetOnlyAsStated : Prop :=
  ∀ s t : State, DispatchInv s → step s = .next t →
    (s.force = true → t.force = true) ∧
    (s.force = false → t.force = true → ∃ n p i, s.pick = some n ∧ s.ports[n]? = some p ∧
      decode s.inp (p.stream.drop p.pc.toNat) = .ok i ∧
      ((i = .forcesw ∧ p.ph = .ready) ∨ (i = .selfcheck ∧ p.ph = .scMismatch) ∨
        (s.init = .busy ∧ s.initOwner.toNat = n ∧ s.inp.env = .sw)))

/-- 43_dispatch.md R92 (c): once SEL is SW, after any further steps of any ports a NAME that completes gives "sw". -/
def Obligations.NameStaysSoftwareOnceForced : Prop :=
  ∀ s t : State, DispatchInv s → s.sel = .sw → Reaches s t →
    ∀ p, t.ports[t.cur]? = some p → ∃ u q, exec .name t = .next u ∧ u.ports[t.cur]? = some q ∧
      q.r = some 0x00007773 ∧ u.sel = .sw

/-- 43_dispatch.md R92 (d): once SEL is SW, a port whose STALE is clear keeps it clear, and every later CSUM there runs the
software engine. -/
def Obligations.ForcedPortRunsTheSoftwareEngine : Prop :=
  ∀ (s t : State) (n : Nat) (p : Port), DispatchInv s → s.sel = .sw → s.ports[n]? = some p → p.stale = false →
    Reaches s t →
    ∃ q, t.ports[n]? = some q ∧ q.stale = false ∧
      ∀ (a len : Addr) (bs : List Byte), q.addr = some a → q.len = some len →
        Memory.read t.mem t.inp.xlen a len.toNat = .ok bs →
        exec .csum { t with cur := n } = .next { t with
          cur := n
          ports := t.ports.set n { q with r := some (swCrc bs), pc := q.pc + 1 } }

/-! ### Observation -/

/-- 10_state.md R27, R28: the fields of DSTAT, CFG and PSTAT. -/
def Obligations.ObservationWordsHoldTheirFields : Prop :=
  (∀ s : State,
    s.dstat.extractLsb' 0 2 = (match s.sel with | .undecided => 0 | .hw => 1 | .sw => 2) ∧
    s.dstat.extractLsb' 2 1 = (if s.force then 1 else 0) ∧
    s.dstat.extractLsb' 3 2 = (match s.init with | .none => 0 | .busy => 1 | .done => 2) ∧
    s.dstat.extractLsb' 5 3 = 0 ∧ s.dstat.extractLsb' 8 8 = s.initOwner ∧ s.dstat.extractLsb' 16 16 = 0) ∧
  (∀ inp : Inputs,
    (cfgWord inp).extractLsb' 0 1 = (if inp.cap then 1 else 0) ∧
    (cfgWord inp).extractLsb' 1 1 = (if inp.hwPath then 1 else 0) ∧
    (cfgWord inp).extractLsb' 2 2 = (match inp.env with | .absent => 0 | .sw => 1 | .hw => 2 | .other => 3) ∧
    (cfgWord inp).extractLsb' 4 1 = (match inp.xlen with | .x64 => 1 | .x32 => 0) ∧
    (cfgWord inp).extractLsb' 5 27 = 0) ∧
  ∀ p : Port,
    p.pstat.extractLsb' 0 2 = (match p.scs with | .none => 0 | .success => 1 | .nothingToCheck => 2 | .failure => 3) ∧
    p.pstat.extractLsb' 2 2 = (match p.ph with | .ready => 0 | .forceSet => 1 | .scMatch => 2 | .scMismatch => 3) ∧
    p.pstat.extractLsb' 4 1 = (if p.stale then 1 else 0) ∧
    p.pstat.extractLsb' 5 1 = (if p.faulted then 1 else 0) ∧
    p.pstat.extractLsb' 6 2 = 0 ∧
    p.pstat.extractLsb' 8 4 = (match p.err with
      | .none => 0 | .illegalCmd => 1 | .hwUnsupported => 2 | .uninitReg => 3 | .lenUnderflow => 4 | .memFault => 5) ∧
    p.pstat.extractLsb' 12 20 = 0

/-- 43_dispatch.md R82: only the exact literals "sw" and "hw" of the configuration setting mean anything. -/
def Obligations.OnlyExactLiteralsAreOverrides : Prop :=
  classifySetting none = .absent ∧ classifySetting (some [0x73, 0x77]) = .sw ∧
  classifySetting (some [0x68, 0x77]) = .hw ∧
  ∀ v : List Byte, v ≠ [0x73, 0x77] → v ≠ [0x68, 0x77] → classifySetting (some v) = .other
end

