-- ==== Sys2Proof/Laws/State.lean ====
section
/-! SUPPORT. One lemma per field per update of State and Port, all true by definition, so that no proof unfolds an update. -/

namespace Sys2Proof.Machine

/-! ### The executing port -/

@[simp] theorem State.setMe_ports (s : State) (p : Port) : (s.setMe p).ports = s.ports.set s.cur p := rfl
@[simp] theorem State.setMe_sel (s : State) (p : Port) : (s.setMe p).sel = s.sel := rfl
@[simp] theorem State.setMe_force (s : State) (p : Port) : (s.setMe p).force = s.force := rfl
@[simp] theorem State.setMe_init (s : State) (p : Port) : (s.setMe p).init = s.init := rfl
@[simp] theorem State.setMe_initOwner (s : State) (p : Port) : (s.setMe p).initOwner = s.initOwner := rfl
@[simp] theorem State.setMe_inp (s : State) (p : Port) : (s.setMe p).inp = s.inp := rfl
@[simp] theorem State.setMe_mem (s : State) (p : Port) : (s.setMe p).mem = s.mem := rfl
@[simp] theorem State.setMe_cur (s : State) (p : Port) : (s.setMe p).cur = s.cur := rfl
@[simp] theorem State.setMe_sched (s : State) (p : Port) : (s.setMe p).sched = s.sched := rfl
@[simp] theorem State.setMe_draws (s : State) (p : Port) : (s.setMe p).draws = s.draws := rfl
@[simp] theorem State.setMe_tick (s : State) (p : Port) : (s.setMe p).tick = s.tick := rfl

@[simp] theorem State.raise_ports (s : State) (e : Trap) : (s.raise e).ports = s.ports.set s.cur (s.me.raise e) := rfl
@[simp] theorem State.raise_sel (s : State) (e : Trap) : (s.raise e).sel = s.sel := rfl
@[simp] theorem State.raise_force (s : State) (e : Trap) : (s.raise e).force = s.force := rfl
@[simp] theorem State.raise_init (s : State) (e : Trap) : (s.raise e).init = s.init := rfl
@[simp] theorem State.raise_initOwner (s : State) (e : Trap) : (s.raise e).initOwner = s.initOwner := rfl
@[simp] theorem State.raise_inp (s : State) (e : Trap) : (s.raise e).inp = s.inp := rfl
@[simp] theorem State.raise_mem (s : State) (e : Trap) : (s.raise e).mem = s.mem := rfl
@[simp] theorem State.raise_cur (s : State) (e : Trap) : (s.raise e).cur = s.cur := rfl
@[simp] theorem State.raise_sched (s : State) (e : Trap) : (s.raise e).sched = s.sched := rfl
@[simp] theorem State.raise_draws (s : State) (e : Trap) : (s.raise e).draws = s.draws := rfl
@[simp] theorem State.raise_tick (s : State) (e : Trap) : (s.raise e).tick = s.tick := rfl

theorem State.me_of_getElem? {s : State} {p : Port} (h : s.ports[s.cur]? = some p) : s.me = p := by
  simp [State.me, List.getD, h]

/-- Two replacements of the executing port: the second one counts. -/
@[simp] theorem State.setMe_setMe (s : State) (p q : Port) : (s.setMe p).setMe q = s.setMe q := by
  simp [State.setMe]

theorem State.getElem?_setMe {s : State} {p : Port} (h : s.ports[s.cur]? = some p) (q : Port) :
    (s.setMe q).ports[s.cur]? = some q := by
  obtain ⟨hl, -⟩ := List.getElem?_eq_some_iff.mp h
  simp [hl]

theorem State.getElem?_setMe_ne (s : State) (q : Port) {n : Nat} (h : n ≠ s.cur) :
    (s.setMe q).ports[n]? = s.ports[n]? := by
  simp [List.getElem?_set_ne (Ne.symm h)]

theorem State.me_setMe {s : State} {p : Port} (h : s.ports[s.cur]? = some p) (q : Port) : (s.setMe q).me = q :=
  State.me_of_getElem? (State.getElem?_setMe h q)

/-! ### A port -/

@[simp] theorem Port.raise_pc (p : Port) (e : Trap) : (p.raise e).pc = p.pc := rfl
@[simp] theorem Port.raise_addr (p : Port) (e : Trap) : (p.raise e).addr = p.addr := rfl
@[simp] theorem Port.raise_len (p : Port) (e : Trap) : (p.raise e).len = p.len := rfl
@[simp] theorem Port.raise_c (p : Port) (e : Trap) : (p.raise e).c = p.c := rfl
@[simp] theorem Port.raise_r (p : Port) (e : Trap) : (p.raise e).r = p.r := rfl
@[simp] theorem Port.raise_ph (p : Port) (e : Trap) : (p.raise e).ph = p.ph := rfl
@[simp] theorem Port.raise_stale (p : Port) (e : Trap) : (p.raise e).stale = p.stale := rfl
@[simp] theorem Port.raise_scs (p : Port) (e : Trap) : (p.raise e).scs = p.scs := rfl
@[simp] theorem Port.raise_faulted (p : Port) (e : Trap) : (p.raise e).faulted = true := rfl
@[simp] theorem Port.raise_err (p : Port) (e : Trap) : (p.raise e).err = e.code := rfl
@[simp] theorem Port.raise_faultPc (p : Port) (e : Trap) : (p.raise e).faultPc = p.pc := rfl
@[simp] theorem Port.raise_faultCmd (p : Port) (e : Trap) : (p.raise e).faultCmd = p.stream.getD p.pc.toNat 0 := rfl
@[simp] theorem Port.raise_stream (p : Port) (e : Trap) : (p.raise e).stream = p.stream := rfl

@[simp] theorem Port.result_pc (p : Port) (v : Word) : (p.result v).pc = p.pc + 1 := rfl
@[simp] theorem Port.result_addr (p : Port) (v : Word) : (p.result v).addr = p.addr := rfl
@[simp] theorem Port.result_len (p : Port) (v : Word) : (p.result v).len = p.len := rfl
@[simp] theorem Port.result_c (p : Port) (v : Word) : (p.result v).c = p.c := rfl
@[simp] theorem Port.result_r (p : Port) (v : Word) : (p.result v).r = some v := rfl
@[simp] theorem Port.result_ph (p : Port) (v : Word) : (p.result v).ph = p.ph := rfl
@[simp] theorem Port.result_stale (p : Port) (v : Word) : (p.result v).stale = p.stale := rfl
@[simp] theorem Port.result_scs (p : Port) (v : Word) : (p.result v).scs = p.scs := rfl
@[simp] theorem Port.result_faulted (p : Port) (v : Word) : (p.result v).faulted = p.faulted := rfl
@[simp] theorem Port.result_err (p : Port) (v : Word) : (p.result v).err = p.err := rfl
@[simp] theorem Port.result_faultPc (p : Port) (v : Word) : (p.result v).faultPc = p.faultPc := rfl
@[simp] theorem Port.result_faultCmd (p : Port) (v : Word) : (p.result v).faultCmd = p.faultCmd := rfl
@[simp] theorem Port.result_faultAddr (p : Port) (v : Word) : (p.result v).faultAddr = p.faultAddr := rfl
@[simp] theorem Port.result_stream (p : Port) (v : Word) : (p.result v).stream = p.stream := rfl

/-! ### The shared dispatch state -/

@[simp] theorem State.claim_ports (s : State) : s.claim.ports = s.ports := rfl
@[simp] theorem State.claim_sel (s : State) : s.claim.sel = s.sel := rfl
@[simp] theorem State.claim_force (s : State) : s.claim.force = s.force := rfl
@[simp] theorem State.claim_init (s : State) : s.claim.init = InitGuard.busy := rfl
@[simp] theorem State.claim_initOwner (s : State) : s.claim.initOwner = BitVec.ofNat 8 s.cur := rfl
@[simp] theorem State.claim_inp (s : State) : s.claim.inp = s.inp := rfl
@[simp] theorem State.claim_mem (s : State) : s.claim.mem = s.mem := rfl
@[simp] theorem State.claim_cur (s : State) : s.claim.cur = s.cur := rfl
@[simp] theorem State.claim_sched (s : State) : s.claim.sched = s.sched := rfl
@[simp] theorem State.claim_draws (s : State) : s.claim.draws = s.draws := rfl
@[simp] theorem State.claim_tick (s : State) : s.claim.tick = s.tick := rfl

@[simp] theorem State.decideStep_ports (s : State) : s.decideStep.ports = s.ports := rfl
@[simp] theorem State.decideStep_sel (s : State) : s.decideStep.sel = decideSel s.force s.inp.env s.inp.cap := rfl
@[simp] theorem State.decideStep_force (s : State) : s.decideStep.force = (if s.inp.env = .sw then true else s.force) := rfl
@[simp] theorem State.decideStep_init (s : State) : s.decideStep.init = InitGuard.done := rfl
@[simp] theorem State.decideStep_initOwner (s : State) : s.decideStep.initOwner = 0 := rfl
@[simp] theorem State.decideStep_inp (s : State) : s.decideStep.inp = s.inp := rfl
@[simp] theorem State.decideStep_mem (s : State) : s.decideStep.mem = s.mem := rfl
@[simp] theorem State.decideStep_cur (s : State) : s.decideStep.cur = s.cur := rfl
@[simp] theorem State.decideStep_sched (s : State) : s.decideStep.sched = s.sched := rfl
@[simp] theorem State.decideStep_draws (s : State) : s.decideStep.draws = s.draws := rfl
@[simp] theorem State.decideStep_tick (s : State) : s.decideStep.tick = s.tick := rfl

@[simp] theorem State.forceSoftware_ports (s : State) : s.forceSoftware.ports = s.stalePorts := rfl
@[simp] theorem State.forceSoftware_sel (s : State) : s.forceSoftware.sel = Selector.sw := rfl
@[simp] theorem State.forceSoftware_force (s : State) : s.forceSoftware.force = true := rfl
@[simp] theorem State.forceSoftware_init (s : State) : s.forceSoftware.init = s.init := rfl
@[simp] theorem State.forceSoftware_initOwner (s : State) : s.forceSoftware.initOwner = s.initOwner := rfl
@[simp] theorem State.forceSoftware_inp (s : State) : s.forceSoftware.inp = s.inp := rfl
@[simp] theorem State.forceSoftware_mem (s : State) : s.forceSoftware.mem = s.mem := rfl
@[simp] theorem State.forceSoftware_cur (s : State) : s.forceSoftware.cur = s.cur := rfl
@[simp] theorem State.forceSoftware_sched (s : State) : s.forceSoftware.sched = s.sched := rfl
@[simp] theorem State.forceSoftware_draws (s : State) : s.forceSoftware.draws = s.draws := rfl
@[simp] theorem State.forceSoftware_tick (s : State) : s.forceSoftware.tick = s.tick := rfl

@[simp] theorem State.stalePorts_length (s : State) : s.stalePorts.length = s.ports.length := by
  unfold State.stalePorts
  split <;> simp

/-- What switching to software leaves of the port at a place (43_dispatch.md R89). -/
theorem State.getElem?_stalePorts (s : State) (n : Nat) :
    s.stalePorts[n]? = s.ports[n]?.map fun p => if s.sel = .hw ∧ n ≠ s.cur then { p with stale := true } else p := by
  unfold State.stalePorts
  by_cases hs : s.sel = .hw
  · by_cases hn : n = s.cur
    · cases h : s.ports[n]? <;> simp_all [List.getElem?_mapIdx]
    · cases h : s.ports[n]? <;> simp_all [List.getElem?_mapIdx]
  · simp [hs]

/-! ### Scheduling -/

@[simp] theorem State.select_ports (s : State) (n : Nat) : (s.select n).ports = s.ports := rfl
@[simp] theorem State.select_sel (s : State) (n : Nat) : (s.select n).sel = s.sel := rfl
@[simp] theorem State.select_force (s : State) (n : Nat) : (s.select n).force = s.force := rfl
@[simp] theorem State.select_init (s : State) (n : Nat) : (s.select n).init = s.init := rfl
@[simp] theorem State.select_initOwner (s : State) (n : Nat) : (s.select n).initOwner = s.initOwner := rfl
@[simp] theorem State.select_inp (s : State) (n : Nat) : (s.select n).inp = s.inp := rfl
@[simp] theorem State.select_mem (s : State) (n : Nat) : (s.select n).mem = s.mem := rfl
@[simp] theorem State.select_cur (s : State) (n : Nat) : (s.select n).cur = n := rfl
@[simp] theorem State.select_sched (s : State) (n : Nat) : (s.select n).sched = s.sched.tail := rfl
@[simp] theorem State.select_draws (s : State) (n : Nat) : (s.select n).draws = s.draws := rfl
@[simp] theorem State.select_tick (s : State) (n : Nat) : (s.select n).tick = s.tick + 1 := rfl

end Sys2Proof.Machine
end

