-- ==== Sys2Proof/Laws/Memory.lean ====
section
/-! SUPPORT. Host memory keeps its canonical form, and reads what was placed (20_memory.md R32, R33). -/

namespace Sys2Proof.Machine

/-! ### The canonical form -/

theorem Memory.risesFrom_insert (m : Memory) :
    ∀ (low a : Nat) (b : Byte), low < a → a < 2 ^ 64 → Memory.risesFrom low m = true →
      Memory.risesFrom low (Memory.insert m a b) = true := by
  induction m with
  | nil => intro low a b hl ha _; simp_all [Memory.insert, Memory.risesFrom]
  | cons cell rest ih =>
    obtain ⟨k, v⟩ := cell
    intro low a b hl ha h
    simp only [Memory.risesFrom, Bool.and_eq_true, decide_eq_true_eq] at h
    obtain ⟨⟨hk, hk64⟩, hrest⟩ := h
    unfold Memory.insert
    split_ifs with h1 h2
    · simp_all [Memory.risesFrom]
    · subst h2; simp_all [Memory.risesFrom]
    · have := ih k a b (by omega) ha hrest
      simp_all [Memory.risesFrom]

/-- Placing a byte keeps the canonical form. -/
theorem Memory.wf_place (m : Memory) (a : Nat) (b : Byte) (h : Memory.wf m = true) :
    Memory.wf (Memory.place m a b) = true := by
  unfold Memory.place
  split_ifs with ha
  · exact h
  · exact Memory.risesFrom_insert m 0 a b (by omega) (by omega) h

/-- Placing consecutive bytes keeps the canonical form. -/
theorem Memory.wf_placeBytes (bs : List Byte) :
    ∀ (m : Memory) (a : Nat), Memory.wf m = true → Memory.wf (Memory.placeBytes m a bs) = true := by
  induction bs with
  | nil => intro m a h; exact h
  | cons b rest ih => intro m a h; exact ih _ _ (Memory.wf_place m a b h)

/-- Reset memory lists nothing and is canonical. -/
theorem State.reset_mem_wf : Memory.wf State.reset.mem = true := rfl

/-- A launch keeps the memory it is given. -/
theorem State.launch_mem (inp : Inputs) (m : Memory) (streams : List (List Word)) :
    (State.launch inp m streams).mem = m := rfl

/-! ### Read after placing -/

theorem Memory.lookup_insert (m : Memory) (a c : Nat) (b : Byte) :
    Memory.lookup (Memory.insert m a b) c = if c = a then some b else Memory.lookup m c := by
  induction m with
  | nil => simp only [Memory.insert, Memory.lookup]; split_ifs <;> simp_all
  | cons cell rest ih =>
    obtain ⟨k, v⟩ := cell
    by_cases h1 : a < k
    · simp [Memory.insert, Memory.lookup, h1, eq_comm]
    · by_cases h2 : a = k
      · subst h2
        by_cases h3 : c = a
        · simp [Memory.insert, Memory.lookup, h3]
        · simp [Memory.insert, Memory.lookup, h3, Ne.symm h3]
      · have hi : Memory.insert ((k, v) :: rest) a b = (k, v) :: Memory.insert rest a b := by
          simp [Memory.insert, h1, h2]
        by_cases h3 : k = c
        · have h4 : c ≠ a := fun h => h2 (by omega)
          rw [hi]; simp [Memory.lookup, h3, h4]
        · simp [hi, Memory.lookup, h3, ih]

/-- A placed byte is read back, and every other address reads as before. -/
theorem Memory.get_place (m : Memory) (a c : Nat) (b : Byte) (ha : a ≠ 0) (ha64 : a < 2 ^ 64) :
    Memory.get (Memory.place m a b) c = if c = a then some b else Memory.get m c := by
  have hp : ¬ (a = 0 ∨ 2 ^ 64 ≤ a) := by omega
  unfold Memory.get Memory.place
  rw [if_neg hp, Memory.lookup_insert]
  split_ifs <;> simp_all

/-- Nothing makes address 0 readable (20_memory.md R39). -/
@[simp] theorem Memory.get_zero (m : Memory) : Memory.get m 0 = none := rfl

/-! ### Reading bytes -/

/-- As many bytes are read as were asked for. -/
theorem Memory.length_of_readBytes (m : Memory) :
    ∀ (n a : Nat) (bs : List Byte), Memory.readBytes m a n = .ok bs → bs.length = n := by
  intro n
  induction n with
  | zero => intro a bs h; simp [Memory.readBytes] at h; simp [← h]
  | succ n ih =>
    intro a bs h
    simp only [Memory.readBytes] at h
    split at h
    · cases h
    · split at h
      · cases h
      · next hb _ ht => cases h; simp [ih _ _ ht]

/-- The address of a failed read lies in the range. -/
theorem Memory.error_of_readBytes (m : Memory) :
    ∀ (n a e : Nat), Memory.readBytes m a n = .error e → a ≤ e ∧ e < a + n := by
  intro n
  induction n with
  | zero => intro a e h; simp [Memory.readBytes] at h
  | succ n ih =>
    intro a e h
    simp only [Memory.readBytes] at h
    split at h
    · cases h; omega
    · split at h
      · next _ _ _ ht => cases h; have := ih _ _ ht; omega
      · cases h

/-- Reading a range in two parts. -/
theorem Memory.readBytes_add (m : Memory) :
    ∀ (n k a : Nat) (bs : List Byte), Memory.readBytes m a (n + k) = .ok bs →
      Memory.readBytes m a n = .ok (bs.take n) ∧ Memory.readBytes m (a + n) k = .ok (bs.drop n) := by
  intro n
  induction n with
  | zero => intro k a bs h; simpa [Memory.readBytes] using h
  | succ n ih =>
    intro k a bs h
    rw [show n + 1 + k = (n + k) + 1 by omega] at h
    simp only [Memory.readBytes] at h ⊢
    split at h
    · cases h
    · next b hb =>
      split at h
      · cases h
      · next tl ht =>
        cases h
        have := ih k (a + 1) tl ht
        simp [this.1, ← this.2, Nat.add_assoc, Nat.add_comm 1 n]

/-- A successful MemRead of a nonzero count: the range does not wrap, and the bytes are those of the list. -/
theorem Memory.read_ok {m : Memory} {x : Xlen} {a : Addr} {n : Nat} {bs : List Byte} (hn : n ≠ 0)
    (h : Memory.read m x a n = .ok bs) :
    a.toNat + n ≤ 2 ^ x.bits ∧ Memory.readBytes m a.toNat n = .ok bs := by
  unfold Memory.read at h
  split_ifs at h with h1 h2
  · exact absurd h1 hn
  · split at h
    · cases h
    · next hb => cases h; exact ⟨by omega, hb⟩

/-- As many bytes are read as were asked for. -/
theorem Memory.length_of_read {m : Memory} {x : Xlen} {a : Addr} {n : Nat} {bs : List Byte}
    (h : Memory.read m x a n = .ok bs) : bs.length = n := by
  by_cases hn : n = 0
  · subst hn; simp [Memory.read] at h; simp [← h]
  · exact Memory.length_of_readBytes m n _ bs (Memory.read_ok hn h).2

/-- A failed MemRead raises MEM_FAULT at an XLEN-bit address. -/
theorem Memory.error_of_read {m : Memory} {x : Xlen} {a : Addr} {n : Nat} {e : Trap}
    (h : Memory.read m x a n = .error e) (ha : a.toNat < 2 ^ x.bits) :
    ∃ f : Addr, e = .memFault f ∧ f.toNat < 2 ^ x.bits := by
  unfold Memory.read at h
  split_ifs at h with h1 h2
  · cases h; exact ⟨a, rfl, ha⟩
  · split at h
    · next e' he =>
      cases h
      have hb := Memory.error_of_readBytes m n _ _ he
      refine ⟨_, rfl, ?_⟩
      rw [BitVec.toNat_ofNat]
      exact lt_of_le_of_lt (Nat.mod_le _ _) (by omega)
    · cases h

end Sys2Proof.Machine
end

