-- ==== Sys2Proof/Laws/Exec.lean ====
section
/-! SUPPORT. Once for each shared operation, everything it can do; proofs cite these and do not unfold the operations. -/

namespace Sys2Proof.Machine

/-! ### Ending a command -/

@[simp] theorem require_ok {b : Bool} {e : Trap} {u : Unit} : require b e = .ok u ↔ b = true := by
  unfold require; split_ifs <;> simp_all

@[simp] theorem require_error {b : Bool} {e f : Trap} : require b e = .error f ↔ b = false ∧ f = e := by
  unfold require; split_ifs <;> simp_all [eq_comm]

@[simp] theorem readReg_ok {α : Type} {v : Option α} {a : α} : readReg v = .ok a ↔ v = some a := by
  cases v <;> simp [readReg]

@[simp] theorem readReg_error {α : Type} {v : Option α} {e : Trap} : readReg v = .error e ↔ v = none ∧ e = .uninitReg := by
  cases v <;> simp [readReg, eq_comm]

/-- A command that changes the executing port only either replaces it or takes its fault. -/
theorem State.runPort_next {s t : State} {r : Except Trap Port} :
    s.runPort r = .next t ↔ (∃ p, r = .ok p ∧ t = s.setMe p) ∨ ∃ e, r = .error e ∧ t = s.raise e := by
  cases r <;> simp [State.runPort, State.settle, Except.map, eq_comm]

@[simp] theorem State.runPort_ok (s : State) (p : Port) : s.runPort (.ok p) = .next (s.setMe p) := rfl

@[simp] theorem State.runPort_error (s : State) (e : Trap) : s.runPort (.error e) = .next (s.raise e) := rfl

/-- After initialization a dispatch-triggering command runs its body (43_dispatch.md R84). -/
theorem State.protocol_done {s : State} (h : s.init = .done) (body : State → Host.Outcome State Fault Refusal) :
    s.protocol body = body s := by
  simp [State.protocol, h]

/-- What the initialization protocol does (43_dispatch.md R84). -/
theorem State.protocol_next {s t : State} {body : State → Host.Outcome State Fault Refusal} :
    s.protocol body = .next t ↔
      (s.init = .done ∧ body s = .next t) ∨ (s.init = .none ∧ t = s.claim) ∨
      (s.init = .busy ∧ s.initOwner.toNat = s.cur ∧ t = s.decideStep) := by
  cases h : s.init
  · simp [State.protocol, h, eq_comm]
  · by_cases ho : s.initOwner.toNat = s.cur
    · simp [State.protocol, h, ho, eq_comm]
    · simp [State.protocol, h, ho]
  · simp [State.protocol, h]

/-! ### Operand forms -/

/-- The chunk operand (41_hw_engine.md R74): where it completes. -/
theorem Port.foldChunk_ok {p q : Port} {inp : Inputs} {m : Memory} {n : Nat} {f : Word → Addr → List Byte → Word} :
    p.foldChunk inp m n f = .ok q ↔ ∃ c a len bs, p.c = some c ∧ p.addr = some a ∧ p.len = some len ∧ n ≤ len.toNat ∧
      Memory.read m inp.xlen a n = .ok bs ∧ q = { p with
        c := some (f c a bs), addr := some (addrAdd inp.xlen a n), len := some (len - BitVec.ofNat 64 n),
        pc := p.pc + 1 } := by
  unfold Port.foldChunk
  rcases hc : p.c with _ | c <;> rcases ha : p.addr with _ | a <;> rcases hl : p.len with _ | len <;>
    simp [readReg, bind, Except.bind]
  by_cases h : n ≤ len.toNat
  · cases hr : Memory.read m inp.xlen a n <;> simp [require, h, eq_comm]
  · simp [require, h]

/-- The chunk operand: its faults in their priority (60_exceptions.md R110). -/
theorem Port.foldChunk_error {p : Port} {inp : Inputs} {m : Memory} {n : Nat} {f : Word → Addr → List Byte → Word}
    {e : Trap} :
    p.foldChunk inp m n f = .error e ↔
      ((p.c = none ∨ p.addr = none ∨ p.len = none) ∧ e = .uninitReg) ∨
      ∃ c a len, p.c = some c ∧ p.addr = some a ∧ p.len = some len ∧
        ((len.toNat < n ∧ e = .lenUnderflow) ∨ (n ≤ len.toNat ∧ Memory.read m inp.xlen a n = .error e)) := by
  unfold Port.foldChunk
  rcases hc : p.c with _ | c <;> rcases ha : p.addr with _ | a <;> rcases hl : p.len with _ | len <;>
    simp [readReg, bind, Except.bind, eq_comm]
  by_cases h : n ≤ len.toNat
  · cases hr : Memory.read m inp.xlen a n <;> simp [require, h]
  · simp [require, h]; omega

theorem Port.buffer_noLen {p : Port} {inp : Inputs} {m : Memory} (h : p.len = none) :
    p.buffer inp m = .error .uninitReg := by
  unfold Port.buffer; rw [h]; rfl

theorem Port.buffer_empty {p : Port} {inp : Inputs} {m : Memory} (h : p.len = some 0) :
    p.buffer inp m = .ok (p.addr.getD 0, []) := by
  unfold Port.buffer; rw [h]; rfl

theorem Port.buffer_noAddr {p : Port} {inp : Inputs} {m : Memory} {n : Addr} (h : p.len = some n) (hn : n ≠ 0)
    (ha : p.addr = none) : p.buffer inp m = .error .uninitReg := by
  unfold Port.buffer; rw [h, ha]; exact if_neg hn

theorem Port.buffer_read {p : Port} {inp : Inputs} {m : Memory} {n a : Addr} (h : p.len = some n) (hn : n ≠ 0)
    (ha : p.addr = some a) :
    p.buffer inp m = (Memory.read m inp.xlen a n.toNat).map fun bs => (a, bs) := by
  have hb : p.buffer inp m = if n = 0 then .ok (p.addr.getD 0, []) else
      (readReg p.addr).bind fun a => (Memory.read m inp.xlen a n.toNat).bind fun bs => .ok (a, bs) := by
    unfold Port.buffer; rw [h]; rfl
  rw [hb, if_neg hn, ha]
  cases hr : Memory.read m inp.xlen a n.toNat <;> simp [readReg, Except.bind, Except.map, hr]

/-- The whole-buffer operand (40_sw_engine.md R64): where it completes. -/
theorem Port.buffer_ok {p : Port} {inp : Inputs} {m : Memory} {ab : Addr × List Byte} :
    p.buffer inp m = .ok ab ↔
      (p.len = some 0 ∧ ab = (p.addr.getD 0, [])) ∨
      ∃ n a bs, p.len = some n ∧ n ≠ 0 ∧ p.addr = some a ∧ Memory.read m inp.xlen a n.toNat = .ok bs ∧ ab = (a, bs) := by
  constructor
  · intro h
    rcases hl : p.len with _ | n
    · rw [Port.buffer_noLen hl] at h; cases h
    · by_cases h0 : n = 0
      · subst h0; rw [Port.buffer_empty hl] at h; cases h; exact .inl ⟨rfl, rfl⟩
      · rcases ha : p.addr with _ | a
        · rw [Port.buffer_noAddr hl h0 ha] at h; cases h
        · rw [Port.buffer_read hl h0 ha] at h
          rcases hr : Memory.read m inp.xlen a n.toNat with e | bs
          · rw [hr] at h; cases h
          · rw [hr] at h; cases h; exact .inr ⟨n, a, bs, rfl, h0, rfl, hr, rfl⟩
  · rintro (⟨hl, rfl⟩ | ⟨n, a, bs, hl, h0, ha, hr, rfl⟩)
    · exact Port.buffer_empty hl
    · rw [Port.buffer_read hl h0 ha, hr]; rfl

/-- The whole-buffer operand: its faults (60_exceptions.md R107, R109). -/
theorem Port.buffer_error {p : Port} {inp : Inputs} {m : Memory} {e : Trap} :
    p.buffer inp m = .error e ↔
      ((p.len = none ∨ (p.len ≠ some 0 ∧ p.addr = none)) ∧ e = .uninitReg) ∨
      ∃ n a, p.len = some n ∧ n ≠ 0 ∧ p.addr = some a ∧ Memory.read m inp.xlen a n.toNat = .error e := by
  constructor
  · intro h
    rcases hl : p.len with _ | n
    · rw [Port.buffer_noLen hl] at h; cases h; exact .inl ⟨.inl rfl, rfl⟩
    · by_cases h0 : n = 0
      · subst h0; rw [Port.buffer_empty hl] at h; cases h
      · rcases ha : p.addr with _ | a
        · rw [Port.buffer_noAddr hl h0 ha] at h; cases h
          exact .inl ⟨.inr ⟨fun hc => h0 (Option.some.inj hc), rfl⟩, rfl⟩
        · rw [Port.buffer_read hl h0 ha] at h
          rcases hr : Memory.read m inp.xlen a n.toNat with f | bs
          · rw [hr] at h; cases h; exact .inr ⟨n, a, rfl, h0, rfl, hr⟩
          · rw [hr] at h; cases h
  · rintro (⟨hl | ⟨hl, ha⟩, rfl⟩ | ⟨n, a, hl, h0, ha, hr⟩)
    · exact Port.buffer_noLen hl
    · rcases hl' : p.len with _ | n
      · exact Port.buffer_noLen hl'
      · exact Port.buffer_noAddr hl' (fun h => hl (by rw [hl', h])) ha
    · rw [Port.buffer_read hl h0 ha, hr]; rfl

/-! ### CSUM's body -/

/-- CSUM's body where its buffer is readable (43_dispatch.md R88). -/
theorem csumBody_ok {s : State} {ab : Addr × List Byte} (h : s.me.buffer s.inp s.mem = .ok ab) :
    csumBody s = .next (s.csumDone (engineCrc s.inp ab.1 ab.2 s.csumEngine)) := by
  unfold csumBody; rw [h]; rfl

/-- CSUM's body where its buffer faults (43_dispatch.md R88). -/
theorem csumBody_error {s : State} {e : Trap} (h : s.me.buffer s.inp s.mem = .error e) :
    csumBody s = .next (s.raise e) := by
  unfold csumBody; rw [h]; rfl

/-! ### Scheduling -/

/-- Only an element of the list is chosen. -/
theorem mem_of_chooseFrom : ∀ (l : List Nat) (k n : Nat), chooseFrom l k = some n → n ∈ l := by
  intro l
  induction l with
  | nil => intro k n h; simp [chooseFrom] at h
  | cons p rest ih =>
    intro k n h
    cases rest with
    | nil => simp [chooseFrom] at h; simp [h]
    | cons q rest =>
      cases k with
      | zero => simp [chooseFrom] at h; simp [h]
      | succ k => simp only [chooseFrom] at h; exact List.mem_cons_of_mem _ (ih k n h)

/-- Nothing is chosen from the empty list alone. -/
theorem chooseFrom_none : ∀ (l : List Nat) (k : Nat), chooseFrom l k = none ↔ l = [] := by
  intro l
  induction l with
  | nil => simp [chooseFrom]
  | cons p rest ih =>
    intro k
    cases rest with
    | nil => simp [chooseFrom]
    | cons q rest =>
      cases k with
      | zero => simp [chooseFrom]
      | succ k => simp only [chooseFrom]; rw [ih k]; simp

theorem State.mem_enabledPorts {s : State} {n : Nat} : n ∈ s.enabledPorts ↔ s.enabled n = true := by
  simp only [State.enabledPorts, List.mem_filter, List.mem_range, and_iff_right_iff_imp]
  intro h
  by_contra hn
  simp [State.enabled, List.getElem?_eq_none (not_lt.mp hn)] at h

/-- Where a step has a next state: it is that of one picked port's step. -/
theorem step_next {s t : State} :
    step s = .next t ↔ ∃ n, s.pick = some n ∧ stepAt (s.select n) = .next t := by
  unfold step
  cases h : s.pick <;> simp

end Sys2Proof.Machine
end

