-- ==== Sys2Proof/Laws/PerInstr.lean ====
section
/-! SUPPORT. Per-instruction lemmas of the family Encoding: the words of a command have the length of its format, word 0 is
the command's OP with RSV = 0 (30_encoding.md R46, R47). -/

namespace Sys2Proof.Laws.Encoding

theorem rsvField_zext (b : Byte) : rsvField (b.setWidth 32) = 0 := by
  ext i hi
  simp [rsvField]

theorem opField_zext (b : Byte) : opField (b.setWidth 32) = b := by
  ext i hi
  simp only [opField, BitVec.getElem_extractLsb', BitVec.getLsbD_setWidth]
  rw [BitVec.getLsbD_eq_getElem (by omega)]
  simp; omega

/-- The words of `i`: as many as its format has, the first of them OP zero-extended. -/
def Statement (i : Instr) : Prop :=
  (encode i).length = i.format.words ∧ ∃ w ext, encode i = w :: ext ∧ rsvField w = 0 ∧ opField w = i.opcode

theorem lda (imm : Addr) : Statement (.lda imm) := ⟨rfl, _, _, rfl, rsvField_zext _, opField_zext _⟩

theorem ldl (imm : Addr) : Statement (.ldl imm) := ⟨rfl, _, _, rfl, rsvField_zext _, opField_zext _⟩

theorem ldc (imm : Word) : Statement (.ldc imm) := ⟨rfl, _, _, rfl, rsvField_zext _, opField_zext _⟩

theorem getc : Statement .getc := ⟨rfl, _, _, rfl, rsvField_zext _, opField_zext _⟩

theorem crcInit : Statement .crcInit := ⟨rfl, _, _, rfl, rsvField_zext _, opField_zext _⟩

theorem swStep : Statement .swStep := ⟨rfl, _, _, rfl, rsvField_zext _, opField_zext _⟩

theorem swByte : Statement .swByte := ⟨rfl, _, _, rfl, rsvField_zext _, opField_zext _⟩

theorem swCrc : Statement .swCrc := ⟨rfl, _, _, rfl, rsvField_zext _, opField_zext _⟩

theorem crcFinal : Statement .crcFinal := ⟨rfl, _, _, rfl, rsvField_zext _, opField_zext _⟩

theorem hwU8 : Statement .hwU8 := ⟨rfl, _, _, rfl, rsvField_zext _, opField_zext _⟩

theorem hwU16 : Statement .hwU16 := ⟨rfl, _, _, rfl, rsvField_zext _, opField_zext _⟩

theorem hwU32 : Statement .hwU32 := ⟨rfl, _, _, rfl, rsvField_zext _, opField_zext _⟩

theorem hwU64 : Statement .hwU64 := ⟨rfl, _, _, rfl, rsvField_zext _, opField_zext _⟩

theorem hwCrc : Statement .hwCrc := ⟨rfl, _, _, rfl, rsvField_zext _, opField_zext _⟩

theorem hwavail : Statement .hwavail := ⟨rfl, _, _, rfl, rsvField_zext _, opField_zext _⟩

theorem csum : Statement .csum := ⟨rfl, _, _, rfl, rsvField_zext _, opField_zext _⟩

theorem name : Statement .name := ⟨rfl, _, _, rfl, rsvField_zext _, opField_zext _⟩

theorem forcesw : Statement .forcesw := ⟨rfl, _, _, rfl, rsvField_zext _, opField_zext _⟩

theorem selfcheck : Statement .selfcheck := ⟨rfl, _, _, rfl, rsvField_zext _, opField_zext _⟩

end Sys2Proof.Laws.Encoding
end

