-- ==== Sys2Proof/Laws/Effect.lean ====
section
/-! SUPPORT. Everything a command and a step can do, said once: whoever needs a frame or an invariant takes the cases of
`Effect` and `step_effect` and unfolds no meaning. -/

namespace Sys2Proof.Machine

/-- Where a command's fault comes from: MEM_FAULT only from a MemRead at ADDR. -/
def faultSource (s : State) (e : Trap) : Prop :=
  (∀ a, e ≠ .memFault a) ∨ ∃ a n, s.me.addr = some a ∧ Memory.read s.mem s.inp.xlen a n = .error e

/-- What a command can do at the executing port, one case for each shape of next state. -/
inductive Effect (s : State) : Instr → State → Prop where
  | fault (i : Instr) (e : Trap) : faultSource s e → i ∉ [Instr.name, .forcesw, .selfcheck] →
      (i = .csum → s.init = .done) → Effect s i (s.raise e)
  | lda (v : Addr) : v.toNat < 2 ^ s.inp.xlen.bits →
      Effect s (.lda v) (s.setMe { s.me with addr := some v, pc := s.me.pc + 3 })
  | ldl (v : Addr) : v.toNat < 2 ^ s.inp.xlen.bits →
      Effect s (.ldl v) (s.setMe { s.me with len := some v, pc := s.me.pc + 3 })
  | ldc (v : Word) : Effect s (.ldc v) (s.setMe { s.me with c := some v, pc := s.me.pc + 2 })
  | accumulator (i : Instr) (v : Word) : i ∈ [Instr.crcInit, .swStep] →
      Effect s i (s.setMe { s.me with c := some v, pc := s.me.pc + 1 })
  | result (i : Instr) (v : Word) : i ∈ [Instr.getc, .crcFinal, .swCrc, .hwCrc, .hwavail] →
      Effect s i (s.setMe { s.me with r := some v, pc := s.me.pc + 1 })
  | chunk (i : Instr) (n : Nat) (f : Word → Addr → List Byte → Word) (q : Port) :
      i ∈ [Instr.swByte, .hwU8, .hwU16, .hwU32, .hwU64] → s.me.foldChunk s.inp s.mem n f = .ok q →
      Effect s i (s.setMe q)
  | claim (i : Instr) : i ∈ [Instr.csum, .name, .forcesw, .selfcheck] → (i = .forcesw → s.me.ph = .forceSet) →
      s.init = .none → Effect s i s.claim
  | decide (i : Instr) : i ∈ [Instr.csum, .name, .forcesw, .selfcheck] → (i = .forcesw → s.me.ph = .forceSet) →
      s.init = .busy → s.initOwner.toNat = s.cur → Effect s i s.decideStep
  | csum (v : Word) : s.init = .done → Effect s .csum (s.csumDone v)
  | name : s.init = .done → Effect s .name
      (s.setMe { s.me with r := some (nameCode s.sel), stale := false, pc := s.me.pc + 1 })
  | forceFlag : s.me.ph = .ready → Effect s .forcesw (forceFlag s)
  | forceBody : s.init = .done → s.me.ph = .forceSet → Effect s .forcesw
      (s.forceSoftware.setMe { s.me with stale := false, ph := .ready, pc := s.me.pc + 1 })
  | nothingToCheck : s.init = .done → s.me.ph = .ready → s.sel ≠ .hw → Effect s .selfcheck
      (s.setMe { s.me with r := some 0, scs := .nothingToCheck, stale := false, pc := s.me.pc + 1 })
  | compare (ph : Phase) : s.init = .done → s.me.ph = .ready → s.sel = .hw → ph = .scMatch ∨ ph = .scMismatch →
      Effect s .selfcheck (s.setMe { s.me with ph := ph, stale := false })
  | checkPass : s.init = .done → s.me.ph = .scMatch → Effect s .selfcheck
      (s.setMe { s.me with r := some 0, scs := .success, ph := .ready, pc := s.me.pc + 1 })
  | checkFail : s.init = .done → s.me.ph = .scMismatch → Effect s .selfcheck
      (s.forceSoftware.setMe { s.me with r := some 1, scs := .failure, ph := .ready, pc := s.me.pc + 1 })

/-! ### The shared operations -/

theorem Effect.of_illegal {s : State} {i : Instr} (h : i ∉ [Instr.csum, .name, .forcesw, .selfcheck]) (e : Trap)
    (he : ∀ a, e ≠ .memFault a) : Effect s i (s.raise e) := by
  refine .fault i e (.inl he) ?_ ?_ <;> intro hi <;> simp_all

theorem faultSource_of_buffer {s : State} {e : Trap} (h : s.me.buffer s.inp s.mem = .error e) : faultSource s e := by
  rcases Port.buffer_error.mp h with ⟨-, rfl⟩ | ⟨n, a, -, -, ha, hr⟩
  · exact .inl (by simp)
  · exact .inr ⟨a, _, ha, hr⟩

theorem faultSource_of_foldChunk {s : State} {n : Nat} {f : Word → Addr → List Byte → Word} {e : Trap}
    (h : s.me.foldChunk s.inp s.mem n f = .error e) : faultSource s e := by
  rcases Port.foldChunk_error.mp h with ⟨-, rfl⟩ | ⟨c, a, len, -, ha, -, ⟨-, rfl⟩ | ⟨-, hr⟩⟩
  · exact .inl (by simp)
  · exact .inl (by simp)
  · exact .inr ⟨a, _, ha, hr⟩

/-- The chunk-command template (41_hw_engine.md R74). -/
theorem chunkCommand_effect {s t : State} {w : ChunkWidth} {i : Instr}
    (hi : i ∈ [Instr.swByte, .hwU8, .hwU16, .hwU32, .hwU64]) (h : chunkCommand w s = .next t) : Effect s i t := by
  have hn : i ∉ [Instr.csum, .name, .forcesw, .selfcheck] := by
    simp only [List.mem_cons, List.not_mem_nil, or_false] at hi
    rcases hi with rfl | rfl | rfl | rfl | rfl <;> simp
  unfold chunkCommand at h
  cases h1 : (s.inp.hwPath && !(w == .w8 && s.inp.xlen == .x32))
  · rw [h1] at h; cases h; exact .of_illegal hn _ (by simp)
  · rw [h1] at h
    cases h2 : s.inp.cap
    · rw [h2] at h; cases h; exact .of_illegal hn _ (by simp)
    · rw [h2] at h
      change s.runPort (s.me.foldChunk s.inp s.mem w.bytes (hwFoldOf s.inp.hw w)) = _ at h
      rcases State.runPort_next.mp h with ⟨q, hq, rfl⟩ | ⟨e, he, rfl⟩
      · exact .chunk i _ _ q hi hq
      · exact .fault i e (faultSource_of_foldChunk he) (by intro hc; simp_all) (by rintro rfl; simp_all)

theorem immOperand_cases (inp : Inputs) (v : Addr) :
    (v.toNat < 2 ^ inp.xlen.bits ∧ immOperand inp v = .ok v) ∨ immOperand inp v = .error .illegalCmd := by
  by_cases h : v.toNat < 2 ^ inp.xlen.bits
  · exact .inl ⟨h, by simp [immOperand, require, h, bind, Except.bind]⟩
  · exact .inr (by simp [immOperand, require, h, bind, Except.bind])

/-- A command over the whole buffer: its result, or the buffer's fault. -/
theorem buffer_effect {s t : State} {i : Instr} {v : Addr × List Byte → Word}
    (hi : i ∈ [Instr.swCrc, .hwCrc])
    (h : s.runPort ((s.me.buffer s.inp s.mem).map fun ab => s.me.result (v ab)) = .next t) : Effect s i t := by
  cases hb : s.me.buffer s.inp s.mem with
  | error e =>
    rw [hb] at h; cases h
    have hs := faultSource_of_buffer hb
    simp only [List.mem_cons, List.not_mem_nil, or_false] at hi
    rcases hi with rfl | rfl <;> exact .fault _ e hs (by simp) (by simp)
  | ok ab =>
    rw [hb] at h; cases h
    refine .result i (v ab) ?_
    simp only [List.mem_cons, List.not_mem_nil, or_false] at hi
    rcases hi with rfl | rfl <;> simp

/-- A command that reads C alone. -/
theorem readC_effect {s t : State} {i : Instr} {f : Word → Port}
    (hn : i ∉ [Instr.csum, .name, .forcesw, .selfcheck]) (hok : ∀ c, s.me.c = some c → Effect s i (s.setMe (f c)))
    (h : s.runPort ((readReg s.me.c).map f) = .next t) : Effect s i t := by
  cases hc : s.me.c with
  | none => rw [hc] at h; cases h; exact .of_illegal hn _ (by simp)
  | some c => rw [hc] at h; cases h; exact hok c hc

/-! ### Every command -/

/-- Every next state of a command is one of its effects. -/
theorem exec_effect {i : Instr} {s t : State} (h : exec i s = .next t) : Effect s i t := by
  cases i with
  | lda v =>
    rcases immOperand_cases s.inp v with ⟨hv, hi⟩ | hi <;> simp only [exec, execLda, hi] at h <;> cases h
    · exact .lda v hv
    · exact .of_illegal (by simp) _ (by simp)
  | ldl v =>
    rcases immOperand_cases s.inp v with ⟨hv, hi⟩ | hi <;> simp only [exec, execLdl, hi] at h <;> cases h
    · exact .ldl v hv
    · exact .of_illegal (by simp) _ (by simp)
  | ldc v => cases h; exact .ldc v
  | getc => exact readC_effect (by simp) (fun c _ => .result _ c (by simp)) h
  | crcInit => cases h; exact .accumulator _ _ (by simp)
  | swStep => exact readC_effect (by simp) (fun c _ => .accumulator _ (crcStep c) (by simp)) h
  | swByte =>
    rcases State.runPort_next.mp h with ⟨q, hq, rfl⟩ | ⟨e, he, rfl⟩
    · exact .chunk _ _ _ q (by simp) hq
    · exact .fault _ e (faultSource_of_foldChunk he) (by simp) (by simp)
  | swCrc => exact buffer_effect (v := fun ab => swCrc ab.2) (by simp) h
  | crcFinal => exact readC_effect (by simp) (fun c _ => .result _ (~~~c) (by simp)) h
  | hwU8 => exact chunkCommand_effect (by simp) h
  | hwU16 => exact chunkCommand_effect (by simp) h
  | hwU32 => exact chunkCommand_effect (by simp) h
  | hwU64 => exact chunkCommand_effect (by simp) h
  | hwCrc =>
    simp only [exec, execHwCrc] at h
    cases h1 : (!(s.inp.hwPath && !s.inp.cap))
    · rw [h1] at h; cases h; exact .of_illegal (by simp) _ (by simp)
    · rw [h1] at h
      exact buffer_effect (v := fun ab => hwCrc s.inp ab.1 ab.2) (by simp) h
  | hwavail => cases h; exact .result _ _ (by simp)
  | csum =>
    rcases State.protocol_next.mp h with ⟨hd, hb⟩ | ⟨hn, rfl⟩ | ⟨hb, ho, rfl⟩
    · cases hbuf : s.me.buffer s.inp s.mem with
      | error e =>
        rw [csumBody_error hbuf] at hb; cases hb
        exact .fault _ e (faultSource_of_buffer hbuf) (by simp) (fun _ => hd)
      | ok ab => rw [csumBody_ok hbuf] at hb; cases hb; exact .csum _ hd
    · exact .claim _ (by simp) (by simp) hn
    · exact .decide _ (by simp) (by simp) hb ho
  | name =>
    rcases State.protocol_next.mp h with ⟨hd, hb⟩ | ⟨hn, rfl⟩ | ⟨hb, ho, rfl⟩
    · cases hb; exact .name hd
    · exact .claim _ (by simp) (by simp) hn
    · exact .decide _ (by simp) (by simp) hb ho
  | forcesw =>
    cases hp : s.me.ph <;> simp only [exec, execForcesw, hp] at h
    · cases h; exact .forceFlag hp
    · rcases State.protocol_next.mp h with ⟨hd, hb⟩ | ⟨hn, rfl⟩ | ⟨hb, ho, rfl⟩
      · cases hb; exact .forceBody hd hp
      · exact .claim _ (by simp) (fun _ => hp) hn
      · exact .decide _ (by simp) (fun _ => hp) hb ho
    · cases h
    · cases h
  | selfcheck =>
    rcases State.protocol_next.mp h with ⟨hd, hb⟩ | ⟨hn, rfl⟩ | ⟨hb, ho, rfl⟩
    · cases hp : s.me.ph <;> simp only [checkBody, hp] at hb
      · unfold checkFirst at hb
        split at hb
        · next hs =>
          cases hb
          refine .compare _ hd hp hs ?_
          split
          · exact .inr rfl
          · exact .inl rfl
        · next hs => cases hb; exact .nothingToCheck hd hp hs
      · cases hb
      · cases hb; exact .checkPass hd hp
      · cases hb; exact .checkFail hd hp
    · exact .claim _ (by simp) (by simp) hn
    · exact .decide _ (by simp) (by simp) hb ho

/-! ### Every step -/

/-- An enabled port (10_state.md R13): it exists, is not faulted, has a word left, and does not hold. -/
theorem State.enabled_spec {s : State} {n : Nat} :
    s.enabled n = true ↔ ∃ p, s.ports[n]? = some p ∧ p.faulted = false ∧ p.pc.toNat < p.stream.length ∧
      s.held n p = false := by
  unfold State.enabled
  cases h : s.ports[n]? <;> simp [and_assoc]

/-- Only an enabled port is picked. -/
theorem State.enabled_of_pick {s : State} {n : Nat} (h : s.pick = some n) : s.enabled n = true :=
  State.mem_enabledPorts.mp (mem_of_chooseFrom _ _ _ h)

/-- What a step does: one picked port, enabled, runs the command its words spell or takes ILLEGAL_CMD. -/
theorem step_effect {s t : State} (h : step s = .next t) :
    ∃ n p, s.pick = some n ∧ s.ports[n]? = some p ∧ (s.select n).me = p ∧ p.faulted = false ∧
      p.pc.toNat < p.stream.length ∧ s.held n p = false ∧
      ((∃ i, p.fetch s.inp = .ok i ∧ Effect (s.select n) i t) ∨
        ((∃ e, p.fetch s.inp = .error e) ∧ t = (s.select n).raise .illegalCmd)) := by
  obtain ⟨n, hp, hs⟩ := step_next.mp h
  obtain ⟨p, hn, hf, hl, hh⟩ := State.enabled_spec.mp (State.enabled_of_pick hp)
  have hm : (s.select n).me = p := State.me_of_getElem? hn
  refine ⟨n, p, hp, hn, hm, hf, hl, hh, ?_⟩
  unfold stepAt at hs
  rw [hm] at hs
  change (match p.fetch s.inp with | .ok i => exec i (s.select n) | .error _ => _) = _ at hs
  cases hd : p.fetch s.inp with
  | ok i => rw [hd] at hs; exact .inl ⟨i, rfl, exec_effect hs⟩
  | error e => rw [hd] at hs; cases hs; exact .inr ⟨⟨e, rfl⟩, rfl⟩

end Sys2Proof.Machine
end

