-- ==== Sys2Proof/Tests/Slice0.lean ====
section
/-! SUPPORT. Tests on fixed values, each from an example or a vector of spec/, and for each statement that has hypotheses a
witness that meets all of them together. -/

namespace Sys2Proof.Tests

open Sys2Proof Sys2Proof.Machine

/-! ### Small states -/

/-- Conforming hardware in the configuration of 95_test_vectors.md. -/
def conf : Inputs := { Inputs.default with hw := .stated [] }

/-- The broken hardware B1: the 8-byte fold is off by 1 (95_test_vectors.md section 2.8). -/
def broken : Inputs := { conf with hw := .stated [⟨.w8, 1, false⟩] }

/-- XLEN = 32. -/
def narrow : Inputs := { conf with xlen := .x32 }

/-- An architecture without the CRC instruction. -/
def softOnly : Inputs := { conf with hwPath := false, cap := false }

/-- The CRC instruction exists in principle, this CPU lacks it. -/
def incapable : Inputs := { conf with cap := false }

/-- "123456789" at 0x1000. -/
def digits : Memory := Memory.placeBytes [] 0x1000 checkVector

/-- A port about to run a program, with the digits as its buffer and the accumulator at its initial value. -/
def portOf (prog : List Instr) : Port :=
  { Port.reset (assemble prog) with addr := some 0x1000, len := some 9, c := some 0xFFFFFFFF }

/-- A port right after reset with a program. -/
def freshPort (prog : List Instr) : Port := Port.reset (assemble prog)

/-- A block before initialization; the tapes hold the environment's next choices. -/
def blockOf (inp : Inputs) (ports : List Port) : State :=
  { State.launch inp digits [] with ports := ports, sched := [0, 0, 0], draws := [.hw, .sw] }

/-- A block after initialization. -/
def doneBlock (inp : Inputs) (sel : Selector) (ports : List Port) : State :=
  { blockOf inp ports with sel := sel, init := .done }

/-- A block that port 0 is initializing. -/
def busyBlock (inp : Inputs) (ports : List Port) : State := { blockOf inp ports with init := .busy }

/-- The next state, if there is one. -/
def outState : Host.Outcome State Fault Refusal → Option State
  | .next s => some s
  | .fault _ => none
  | .refused _ => none

/-- A port of the next state. -/
def outPort (n : Nat) (o : Host.Outcome State Fault Refusal) : Option Port := (outState o).bind fun s => s.ports[n]?

/-- A memory read as data that can be compared. -/
def readOk (m : Memory) (x : Xlen) (a : Addr) (n : Nat) : Option (List Byte) := (Memory.read m x a n).toOption

theorem next_of_outState {o : Host.Outcome State Fault Refusal} (h : (outState o).isSome = true) : ∃ t, o = .next t := by
  cases o with
  | next t => exact ⟨t, rfl⟩
  | fault r => cases h
  | refused r => cases h

/-! ### Well-formedness: an ill-formed term for each check (30_encoding.md R50, R53) -/

theorem test_wf_refuses_wide_lda : (Instr.lda 0x100000000).wellFormed narrow = false := by decide
theorem test_wf_refuses_wide_ldl : (Instr.ldl 0x100000000).wellFormed narrow = false := by decide
theorem test_wf_refuses_hwU8 : Instr.hwU8.wellFormed softOnly = false := by decide
theorem test_wf_refuses_hwU16 : Instr.hwU16.wellFormed softOnly = false := by decide
theorem test_wf_refuses_hwU32 : Instr.hwU32.wellFormed softOnly = false := by decide
theorem test_wf_refuses_hwU64 : Instr.hwU64.wellFormed softOnly = false := by decide
theorem test_wf_refuses_hwU64_narrow : Instr.hwU64.wellFormed narrow = false := by decide
theorem test_wf_admits : Instr.hwCrc.wellFormed softOnly = true ∧ (Instr.lda 0xFFFFFFFF).wellFormed narrow = true ∧
    Instr.hwU32.wellFormed narrow = true := by decide

/-! ### Decoding: words written out from 30_encoding.md R46 to R51 and 95_test_vectors.md sections 2.9 and 2.10 -/

theorem test_decode_transfer :
    decode conf [0x00000001, 0x00001000, 0x00000000] = .ok (.lda 0x1000) ∧
    decode conf [0x00000001, 0x00000010, 0xFFFFFFFF] = .ok (.lda 0xFFFFFFFF00000010) ∧
    decode conf [0x00000002, 0x00000009, 0x00000000] = .ok (.ldl 9) ∧
    decode conf [0x00000003, 0xFFFFFFCE] = .ok (.ldc 0xFFFFFFCE) ∧
    decode conf [0x00000004] = .ok .getc := by decide

theorem test_decode_software :
    decode conf [0x00000010] = .ok .crcInit ∧ decode conf [0x00000011] = .ok .swStep ∧
    decode conf [0x00000012] = .ok .swByte ∧ decode conf [0x00000013] = .ok .swCrc ∧
    decode conf [0x00000014] = .ok .crcFinal := by decide

theorem test_decode_hardware :
    decode conf [0x00000020] = .ok .hwU8 ∧ decode conf [0x00000021] = .ok .hwU16 ∧
    decode conf [0x00000022] = .ok .hwU32 ∧ decode conf [0x00000023] = .ok .hwU64 ∧
    decode conf [0x00000024] = .ok .hwCrc := by decide

theorem test_decode_others :
    decode conf [0x00000030] = .ok .hwavail ∧ decode conf [0x00000040] = .ok .csum ∧
    decode conf [0x00000041] = .ok .name ∧ decode conf [0x00000042] = .ok .forcesw ∧
    decode conf [0x00000050] = .ok .selfcheck := by decide

theorem test_decode_illegal :
    decode conf [0x00000000] = .error .reservedOpcode ∧ decode conf [0x00000005] = .error .reservedOpcode ∧
    decode conf [0x00000140] = .error .reservedBits ∧ decode conf [0x000000FF] = .error .reservedOpcode ∧
    decode narrow [0x00000023] = .error .noWideChunk ∧ decode softOnly [0x00000020] = .error .noHwPath ∧
    decode softOnly [0x00000024] = .ok .hwCrc ∧ decode conf [0x00000001, 0x00001000] = .error .truncated ∧
    decode conf [0x00000003] = .error .truncated ∧
    decode narrow [0x00000001, 0x00000000, 0x00000001] = .error .wideImmediate := by decide

theorem test_table_words_low : [0x01, 0x02, 0x03, 0x04, 0x10, 0x11, 0x12, 0x13, 0x14].map (decodeTableWord 32) =
    [some (.lda 0), some (.ldl 0), some (.ldc 0), some .getc, some .crcInit, some .swStep, some .swByte, some .swCrc,
      some .crcFinal] := by decide

theorem test_table_words_high : [0x20, 0x21, 0x22, 0x23, 0x24, 0x30, 0x40, 0x41, 0x42, 0x50].map (decodeTableWord 32) =
    [some .hwU8, some .hwU16, some .hwU32, some .hwU64, some .hwCrc, some .hwavail, some .csum, some .name,
      some .forcesw, some .selfcheck] := by decide

/-- 30_encoding.md R55: the words of a program, word 0 first. -/
theorem test_assemble : assemble (pseudoCrcStr 0x1000 9) =
    [0x00000001, 0x00001000, 0x00000000, 0x00000002, 0x00000009, 0x00000000, 0x00000040] := by decide

/-- A placed word is the first command that runs from reset: CRC.INIT. -/
theorem test_withFetchWord_runs : (outPort 0 (step (State.reset.withFetchWord 32 0x10))).bind Port.c = some 0xFFFFFFFF := by
  decide

/-- A placed word of three words runs too: LDA 0. -/
theorem test_withFetchWord_lda : (outPort 0 (step (State.reset.withFetchWord 32 0x01))).map Port.pc = some 3 := by
  decide

/-! ### The engines (95_test_vectors.md sections 2.1, 2.3 and 2.4) -/

theorem test_known_vector : swCrc checkVector = 0xE3069283 ∧ hwCrc conf 0x1000 checkVector = 0xE3069283 := by
  decide +kernel

theorem test_broken_vector : hwCrc broken 0x3000 checkVector = 0x116D1180 := by decide +kernel

theorem test_pattern : swCrc (patSlice 3 8) = 0xBA3D639D ∧ patByte 85 = 0 ∧ patByte 255 = 0xFE := by decide +kernel

theorem test_plans : plan .x64 15 = [.w8, .w4, .w2, .w1] ∧ plan .x64 7 = [.w4, .w2, .w1] ∧
    plan .x32 11 = [.w4, .w4, .w2, .w1] := by decide

/-! ### Memory (20_memory.md R33) -/

theorem test_read : readOk digits .x64 0x1007 2 = some [0x38, 0x39] ∧ readOk digits .x64 0 0 = some [] := by decide

theorem test_read_faults : (Memory.read digits .x64 0x1000 10 = .error (.memFault 0x1009)) ∧
    (Memory.read digits .x64 0 1 = .error (.memFault 0)) ∧
    (Memory.read digits .x64 0xFFFFFFFFFFFFFFFF 2 = .error (.memFault 0xFFFFFFFFFFFFFFFF)) := by decide

theorem test_memory_canonical : Memory.wf digits = true ∧ Memory.place digits 0x1000 0x31 = digits ∧
    Memory.get (Memory.place digits 0 7) 0 = none := by decide

/-! ### One step of each command -/

/-- 45_operand_transfer.md R99. -/
theorem test_lda : (outPort 0 (exec (.lda 0x1000) (blockOf conf [freshPort [.getc]]))) =
    some { freshPort [.getc] with addr := some 0x1000, pc := 3 } := by decide

/-- 45_operand_transfer.md R100. -/
theorem test_ldl : (outPort 0 (exec (.ldl 9) (blockOf conf [freshPort [.getc]]))) =
    some { freshPort [.getc] with len := some 9, pc := 3 } := by decide

/-- 45_operand_transfer.md R101. -/
theorem test_ldc : (outPort 0 (exec (.ldc 1) (blockOf conf [freshPort [.getc]]))) =
    some { freshPort [.getc] with c := some 1, pc := 2 } := by decide

/-- 45_operand_transfer.md R102. -/
theorem test_getc : (outPort 0 (exec .getc (blockOf conf [{ freshPort [.getc] with c := some 0x82F63B78 }]))).bind Port.r =
    some 0x82F63B78 := by decide

/-- 95_test_vectors.md section 2.11: GETC at reset, with its fault record and PSTAT. -/
theorem test_getc_faults : (outPort 0 (step (blockOf conf [freshPort [.getc]]))).map
    (fun p => (p.err, p.faultPc, p.faultCmd, p.pstat)) = some (.uninitReg, 0, 0x00000004, 0x00000320) := by decide

/-- 40_sw_engine.md R61. -/
theorem test_crcInit : (outPort 0 (exec .crcInit (blockOf conf [freshPort [.crcInit]]))).map (fun p => (p.c, p.pc)) =
    some (some 0xFFFFFFFF, 1) := by decide

/-- 40_sw_engine.md R62. -/
theorem test_swStep : (outPort 0 (exec .swStep (blockOf conf [{ freshPort [.swStep] with c := some 1 }]))).bind Port.c =
    some 0x82F63B78 := by decide

/-- 40_sw_engine.md R62, a corner case. -/
theorem test_swStep_ones : (outPort 0 (exec .swStep (blockOf conf [portOf [.swStep]]))).bind Port.c = some 0xFD09C487 := by
  decide

/-- 40_sw_engine.md R63. -/
theorem test_swByte : (outPort 0 (exec .swByte (blockOf conf [portOf [.swByte]]))).map (fun p => (p.c, p.addr, p.len)) =
    some (some 0x6F0A661C, some 0x1001, some 8) := by decide +kernel

/-- 95_test_vectors.md section 2.11: LEN_UNDERFLOW. -/
theorem test_swByte_underflow : (outPort 0 (step (blockOf conf [{ portOf [.swByte] with len := some 0 }]))).map Port.pstat =
    some 0x00000420 := by decide +kernel

/-- 40_sw_engine.md R64. -/
theorem test_swCrc : (outPort 0 (exec .swCrc (blockOf conf [portOf [.swCrc]]))).map (fun p => (p.r, p.c, p.len)) =
    some (some 0xE3069283, some 0xFFFFFFFF, some 9) := by decide +kernel

/-- 40_sw_engine.md R64: no bytes, no address. -/
theorem test_swCrc_empty : (outPort 0 (exec .swCrc (blockOf conf [{ freshPort [.swCrc] with len := some 0 }]))).bind Port.r =
    some 0 := by decide +kernel

/-- 40_sw_engine.md R65. -/
theorem test_crcFinal : (outPort 0 (exec .crcFinal (blockOf conf [{ freshPort [.crcFinal] with c := some 0x1CF96D7C }]))).bind
    Port.r = some 0xE3069283 := by decide

/-- 41_hw_engine.md R74: the last digit. -/
theorem test_hwU8 : (outPort 0 (exec .hwU8 (blockOf conf
    [{ portOf [.hwU8] with c := some 0x9F787F65, addr := some 0x1008, len := some 1 }]))).map
      (fun p => (p.c, p.addr, p.len)) = some (some 0x1CF96D7C, some 0x1009, some 0) := by decide +kernel

/-- 41_hw_engine.md R75. -/
theorem test_hwU16 : (outPort 0 (exec .hwU16 (blockOf conf [portOf [.hwU16]]))).map (fun p => (p.c, p.addr, p.len)) =
    some (some 0x8CAA3B9F, some 0x1002, some 7) := by decide +kernel

/-- 41_hw_engine.md R76. -/
theorem test_hwU32 : (outPort 0 (exec .hwU32 (blockOf narrow [portOf [.hwU32]]))).map (fun p => (p.c, p.addr, p.len)) =
    some (some 0x09C50B11, some 0x1004, some 5) := by decide +kernel

/-- 41_hw_engine.md R77. -/
theorem test_hwU64 : (outPort 0 (exec .hwU64 (blockOf conf [portOf [.hwU64]]))).map (fun p => (p.c, p.addr, p.len)) =
    some (some 0x9F787F65, some 0x1008, some 1) := by decide +kernel

/-- 41_hw_engine.md R77: illegal at XLEN = 32, before the missing registers. -/
theorem test_hwU64_narrow : (outPort 0 (step (blockOf narrow [freshPort [.hwU64]]))).map Port.pstat = some 0x00000120 := by
  decide

/-- 41_hw_engine.md R78. -/
theorem test_hwCrc : (outPort 0 (exec .hwCrc (blockOf conf [portOf [.hwCrc]]))).bind Port.r = some 0xE3069283 := by
  decide +kernel

/-- 41_hw_engine.md R73: the capability fault comes before the missing length. -/
theorem test_hwCrc_unsupported : (outPort 0 (exec .hwCrc (blockOf incapable [freshPort [.hwCrc]]))).map Port.err =
    some .hwUnsupported := by decide

/-- 42_capability.md R80: CAP passes through even at SEL = SW. -/
theorem test_hwavail : (outPort 0 (exec .hwavail (doneBlock conf .sw [freshPort [.hwavail]]))).bind Port.r = some 1 := by
  decide

/-- 43_dispatch.md R88. -/
theorem test_csum : (outPort 0 (exec .csum (doneBlock conf .hw [portOf [.csum]]))).map (fun p => (p.r, p.pc)) =
    some (some 0xE3069283, 1) := by decide +kernel

/-- 95_test_vectors.md section 2.7.3: a stale CSUM may still run the broken hardware engine, once. -/
theorem test_csum_stale : (outPort 0 (exec .csum (doneBlock broken .sw [{ portOf [.csum] with stale := true }]))).map
    (fun p => (p.r, p.stale)) = some (some 0x116D1180, false) := by decide +kernel

/-- 43_dispatch.md R90. -/
theorem test_name_hw : (outPort 0 (exec .name (doneBlock conf .hw [freshPort [.name]]))).bind Port.r = some 0x00007768 := by
  decide

/-- 43_dispatch.md R90: NAME first in a run claims the initialization. -/
theorem test_name_claims : (outState (exec .name (blockOf conf [freshPort [.name]]))).map State.dstat = some 0x00000008 := by
  decide

/-- 43_dispatch.md R91: the flag step. -/
theorem test_forcesw_flag : (outState (exec .forcesw (blockOf conf [freshPort [.forcesw]]))).map
    (fun s => (s.force, s.sel, s.ports.map Port.ph)) = some (true, .undecided, [.forceSet]) := by decide

/-- 43_dispatch.md R91: the body marks every other port stale. -/
theorem test_forcesw_body : (outState (exec .forcesw (doneBlock conf .hw
    [{ freshPort [.forcesw] with ph := .forceSet }, freshPort [.csum]]))).map
      (fun s => (s.dstat, s.ports.map Port.stale, s.ports.map Port.ph)) =
    some (0x00000016, [false, true], [.ready, .ready]) := by decide

/-- 44_self_check.md R95. -/
theorem test_selfcheck_nothing : (outPort 0 (exec .selfcheck (doneBlock conf .sw [freshPort [.selfcheck]]))).map
    (fun p => (p.r, p.scs, p.pc)) = some (some 0, .nothingToCheck, 1) := by decide

/-- 44_self_check.md R96: B1 fails on the test vector alone. -/
theorem test_selfcheck_compare : (outPort 0 (exec .selfcheck (doneBlock { broken with scPatternLen := 0 } .hw
    [freshPort [.selfcheck]]))).map (fun p => (p.pstat, p.pc)) = some (0x0000000C, 0) := by decide +kernel

/-! ### Observation and configuration (10_state.md R27, 43_dispatch.md R82) -/

theorem test_words : (doneBlock conf .hw []).dstat = 0x00000011 ∧ (blockOf conf []).dstat = 0 ∧ cfgWord conf = 0x13 := by
  decide

theorem test_setting : classifySetting (some [0x73, 0x77]) = .sw ∧ classifySetting (some [0x53, 0x57]) = .other ∧
    classifySetting (some [0x68, 0x77]) = .hw ∧ classifySetting none = .absent := by decide

/-! ### Witnesses: every statement's hypotheses, met together on concrete data -/

/-- `stated []` conforms: the witness of HW_CONFORMS (41_hw_engine.md R68). -/
theorem witness_HwConforms : HwConforms (hwFoldOf conf.hw) := fun _ _ _ _ _ => rfl

/-- B1 does not conform: HW_CONFORMS is no theorem. -/
theorem test_broken_not_conforming : ¬ HwConforms (hwFoldOf broken.hw) := fun h =>
  absurd (h .w8 0 0 [0, 0, 0, 0, 0, 0, 0, 0] rfl) (by decide +kernel)

theorem witness_ChunkPlanFollowsTheLoop : (widest .x64).bytes ≤ 8 ∧ (widest .x32).bytes ≤ 4 ∧ (7 : Nat) < 8 ∧ (3 : Nat) < 4 := by
  decide

theorem witness_HardwareChecksumFoldsThePlan : conf.hwPath = true ∧ ([0x31, 0x32] : List Byte).length = ChunkWidth.w2.bytes := by
  decide

theorem witness_ConformingHardware_withoutPath : softOnly.hwPath = false := rfl

/-- A chunk list folded by `stated []` is the software fold of as many bytes as it covers. -/
theorem conf_fold (ws : List ChunkWidth) : ∀ (c : Word) (a : Addr) (bs : List Byte),
    (ws.map ChunkWidth.bytes).sum = bs.length → hwFoldPlan (hwFoldOf conf.hw) .x64 ws c a bs = swFold c bs := by
  have happ : ∀ (xs ys : List Byte) (c : Word), swFold (swFold c xs) ys = swFold c (xs ++ ys) := by
    intro xs
    induction xs with
    | nil => intro ys c; rfl
    | cons x xs ih => intro ys c; exact ih ys _
  induction ws with
  | nil => intro c a bs h; rw [List.length_eq_zero_iff.mp h.symm]; rfl
  | cons w ws ih =>
    intro c a bs h
    rw [List.map_cons, List.sum_cons] at h
    show hwFoldPlan _ _ ws (swFold c (bs.take w.bytes)) _ (bs.drop w.bytes) = _
    rw [ih _ _ _ (by rw [List.length_drop]; omega), happ, List.take_append_drop]

/-- WholeBufferAgreementForcesChunkAgreement: a block whose hardware checksum is right on every buffer, and a chunk of each
clause: the lowest address of the first clause, and a chunk at address 0 that ends below 2^64. -/
theorem witness_WholeBufferAgreementForcesChunkAgreement :
    conf.hwPath = true ∧
    (∀ (a : Addr) (bs : List Byte), a.toNat + bs.length ≤ 2 ^ conf.xlen.bits → hwCrc conf a bs = swCrc bs) ∧
    (ChunkWidth.w8.bytes ≤ (widest conf.xlen).bytes ∧ (widest conf.xlen).bytes ≤ (8 : Addr).toNat ∧
      (8 : Addr).toNat + ChunkWidth.w8.bytes ≤ 2 ^ conf.xlen.bits) ∧
    (0 : Addr).toNat + ChunkWidth.w1.bytes ≤ 2 ^ conf.xlen.bits := by
  refine ⟨rfl, fun a bs _ => ?_, by decide, by decide⟩
  have hsum : ((plan .x64 bs.length).map ChunkWidth.bytes).sum = bs.length := by
    have ht : ∀ n < 8, ((tailPlan (narrower .x64) n).map ChunkWidth.bytes).sum = n := by decide
    show ((List.replicate (bs.length / 8) ChunkWidth.w8 ++ tailPlan _ (bs.length % 8)).map ChunkWidth.bytes).sum = _
    rw [List.map_append, List.sum_append, List.map_replicate, List.sum_replicate, ht _ (Nat.mod_lt _ (by decide)),
      smul_eq_mul, Nat.mul_comm]
    exact Nat.div_add_mod _ _
  show ~~~(hwFoldPlan (hwFoldOf conf.hw) .x64 (plan .x64 bs.length) crcInitial a bs) = ~~~(swFold crcInitial bs)
  rw [conf_fold _ _ _ _ hsum]

/-- SelfCheckComparisonFacts: the smallest length of its last clause, and the pattern's first and last byte of a slice. -/
theorem witness_SelfCheckComparisonFacts : (318 : Nat) ≤ 318 ∧ (0 : Nat) < 255 ∧ (254 : Nat) < 255 ∧
    (patSlice 63 255)[0]? = some 0xBE ∧ (patSlice 63 255)[254]? = some 0xB8 := by decide

/-- 95_test_vectors.md section 2.8: B1 differs on the test vector already. -/
theorem test_mismatch_vector : mismatch { broken with scPatternLen := 0 } = true := by decide +kernel

/-- 95_test_vectors.md section 2.8: B2 agrees on the test vector, is missed with a pattern of 1 byte and found with one of 2. -/
theorem test_mismatch_slice :
    mismatch { conf with hw := .stated [⟨.w2, 0x80000000, false⟩], scPatternLen := 1 } = false ∧
    mismatch { conf with hw := .stated [⟨.w2, 0x80000000, false⟩], scPatternLen := 2 } = true := by decide +kernel

/-- MemReadGivesTheBytesOrTheLowestFault: a range that would wrap by one byte, a whole buffer, and a buffer whose last byte is
not readable. -/
theorem witness_MemRead :
    (0 < 2 ∧ 2 ^ Xlen.x32.bits < (0xFFFFFFFF : Addr).toNat + 2) ∧
    ((0x1000 : Addr).toNat + 9 ≤ 2 ^ Xlen.x64.bits ∧ checkVector.length = 9 ∧
      ∀ i < 9, Memory.get digits ((0x1000 : Addr).toNat + i) = checkVector[i]?) ∧
    ((0x1000 : Addr).toNat + 10 ≤ 2 ^ Xlen.x64.bits ∧
      (∀ i < 9, Memory.get digits ((0x1000 : Addr).toNat + i) ≠ none) ∧
      Memory.get digits ((0x1000 : Addr).toNat + 9) = none) := by decide

/-- A step that has a next state: StepsWriteNoMemoryAndNoInput, FaultRecordsAreStickyAndInOrder and every other statement about
a step alone. -/
theorem witness_step : ∃ t, step (blockOf conf [portOf [.swByte]]) = .next t := next_of_outState (by decide +kernel)

theorem witness_DecodeOfEncode : (Instr.lda 0xFFFFFFFF).wellFormed narrow = true ∧
    (Instr.lda 0xFFFFFFFFFFFFFFFF).wellFormed conf = true ∧ Instr.hwU64.wellFormed conf = true := by decide

theorem witness_DecodedWords : decode conf [0x00000003, 0x80000000, 0x00000050] = .ok (.ldc 0x80000000) := by decide

/-- IllegalEncodingsAreRefused, each clause at an edge of its range. -/
theorem witness_IllegalEncodings :
    (0x00000140 : Word).extractLsb' 8 24 ≠ 0 ∧
    ((0xFF : Word).toNat < 256 ∧ (0xFF : Word).toNat ∉ [0x01, 0x02, 0x03, 0x04, 0x10, 0x11, 0x12, 0x13, 0x14, 0x20, 0x21,
      0x22, 0x23, 0x24, 0x30, 0x40, 0x41, 0x42, 0x50]) ∧
    (narrow.xlen = .x32 ∧ (1 : Word) ≠ 0) ∧ softOnly.hwPath = false ∧ (narrow.hwPath = true ∧ narrow.xlen = .x32) := by decide

/-- StepRunsTheDecodedCommand and AnyEnabledPortMayTakeTheNextStep. -/
theorem witness_StepRuns :
    (blockOf conf [portOf [.csum], portOf [.getc]]).pick = some 0 ∧
    (blockOf conf [portOf [.csum], portOf [.getc]]).enabled 1 = true ∧
    (blockOf conf [portOf [.csum], portOf [.getc]]).ports[0]? = some (portOf [.csum]) ∧
    decode conf ((portOf [.csum]).stream.drop (portOf [.csum]).pc.toNat) = .ok .csum := by decide

/-- UndecodableWordsRaiseIllegalCmd: a truncated LDC. -/
theorem witness_Undecodable :
    (blockOf conf [Port.reset [0x00000003]]).pick = some 0 ∧
    (blockOf conf [Port.reset [0x00000003]]).ports[0]? = some (Port.reset [0x00000003]) ∧
    (Port.reset [0x00000003]).stream[(Port.reset [0x00000003]).pc.toNat]? = some 0x00000003 ∧
    decode conf ((Port.reset [0x00000003]).stream.drop (Port.reset [0x00000003]).pc.toNat) = .error .truncated := by decide

/-- No port of a state with no ports beyond the listed ones is enabled. -/
theorem not_enabled_of_all {s : State} (h : ∀ n < s.ports.length, s.enabled n = false) (n : Nat) : s.enabled n = false := by
  by_cases hn : n < s.ports.length
  · exact h n hn
  · unfold State.enabled; rw [List.getElem?_eq_none (by omega)]

/-- StepStopsWhereNoPortIsEnabled: an end state, and a state stuck behind a faulted port. -/
theorem witness_StepStops :
    (∀ n, (blockOf conf [freshPort []]).enabled n = false) ∧
    (∀ p ∈ (blockOf conf [freshPort []]).ports, p.pc.toNat = p.stream.length ∧ p.ph = .ready ∧ p.faulted = false) ∧
    (∀ n, (blockOf conf [(freshPort [.getc]).raise .uninitReg]).enabled n = false) ∧
    ¬ ∀ p ∈ (blockOf conf [(freshPort [.getc]).raise .uninitReg]).ports,
      p.pc.toNat = p.stream.length ∧ p.ph = .ready ∧ p.faulted = false :=
  ⟨not_enabled_of_all (by decide), by decide, not_enabled_of_all (by decide), by decide⟩

/-- The invariant before initialization. -/
theorem witness_DispatchInv_fresh : DispatchInv (blockOf conf [portOf [.csum], portOf [.forcesw]]) where
  portCount := by decide
  capNeedsPath := by simp [CapNeedsPath, blockOf, State.launch, conf, Inputs.default]
  undecidedIff := by decide
  hwCapable := by decide
  owner := by simp [blockOf, State.launch]
  ownerIdle := by decide
  phases := by unfold phaseOk; decide
  stale := by decide

/-- The invariant while port 0 initializes and port 1 holds. -/
theorem witness_DispatchInv_busy : DispatchInv (busyBlock conf [portOf [.csum], portOf [.name]]) where
  portCount := by decide
  capNeedsPath := by simp [CapNeedsPath, busyBlock, blockOf, State.launch, conf, Inputs.default]
  undecidedIff := by decide
  hwCapable := by decide
  owner := fun _ => ⟨portOf [.csum], .csum, by decide⟩
  ownerIdle := by decide
  phases := by unfold phaseOk; decide
  stale := by decide

/-- The invariant after initialization, in the middle of a failing SELFCHECK. -/
theorem witness_DispatchInv_hw :
    DispatchInv (doneBlock broken .hw [{ portOf [.selfcheck] with ph := .scMismatch }, portOf [.csum]]) where
  portCount := by decide
  capNeedsPath := by simp [CapNeedsPath, doneBlock, blockOf, State.launch, broken, conf, Inputs.default]
  undecidedIff := by decide
  hwCapable := by decide
  owner := by simp [doneBlock]
  ownerIdle := by decide
  phases := by unfold phaseOk; decide
  stale := by decide

/-- The invariant after software was forced, with a stale port. -/
theorem witness_DispatchInv_sw :
    DispatchInv (doneBlock conf .sw [portOf [.name, .csum], { portOf [.csum] with stale := true }]) where
  portCount := by decide
  capNeedsPath := by simp [CapNeedsPath, doneBlock, blockOf, State.launch, conf, Inputs.default]
  undecidedIff := by decide
  hwCapable := by decide
  owner := by simp [doneBlock]
  ownerIdle := by decide
  phases := by unfold phaseOk; decide
  stale := by decide

/-- EveryEnabledStepHasANextState and the third clause of TheOwnerStepsAndNothingDeadlocks: port 1 holds, port 0 steps. -/
theorem witness_EveryEnabledStep :
    (busyBlock conf [portOf [.csum], portOf [.name]]).enabled 0 = true ∧
    (busyBlock conf [portOf [.csum], portOf [.name]]).enabled 1 = false ∧
    (busyBlock conf [portOf [.csum], portOf [.name]]).ports[1]? = some (portOf [.name]) ∧
    (portOf [.name]).faulted = false ∧ (portOf [.name]).pc.toNat < (portOf [.name]).stream.length := by decide

/-- TheOwnerStepsAndNothingDeadlocks, SelectorIsARatchet (it leaves UNDECIDED) and InitializationHappensOnce (BUSY). -/
theorem witness_OwnerStep :
    (busyBlock conf [portOf [.csum], portOf [.name]]).init = .busy ∧
    (busyBlock conf [portOf [.csum], portOf [.name]]).pick = some 0 ∧
    (outState (step (busyBlock conf [portOf [.csum], portOf [.name]]))).map State.sel = some .hw := by decide

/-- InitializationHappensOnce (NONE): the claim. -/
theorem witness_Claim : (outState (step (blockOf conf [portOf [.csum], portOf [.forcesw]]))).map State.init = some .busy := by
  decide

/-- SelectorIsARatchet (HW to SW) and ForceFlagIsStickyAndSetOnlyAsStated (FORCE set): a failing SELFCHECK. -/
theorem witness_Ratchet :
    (doneBlock broken .hw [{ portOf [.selfcheck] with ph := .scMismatch }, portOf [.csum]]).force = false ∧
    (outState (step (doneBlock broken .hw [{ portOf [.selfcheck] with ph := .scMismatch }, portOf [.csum]]))).map
      (fun s => (s.sel, s.force)) = some (.sw, true) := by decide

/-- NameStaysSoftwareOnceForced and ForcedPortRunsTheSoftwareEngine: a step of port 0 leads on, to a port that can run CSUM. -/
theorem witness_Forced :
    (∃ t, Reaches (doneBlock conf .sw [portOf [.name, .csum], { portOf [.csum] with stale := true }]) t ∧
      t.ports[t.cur]? = some { portOf [.name, .csum] with r := some 0x00007773, pc := 1 }) ∧
    (doneBlock conf .sw [portOf [.name, .csum], { portOf [.csum] with stale := true }]).ports[0]? =
      some (portOf [.name, .csum]) ∧
    (portOf [.name, .csum]).stale = false ∧ readOk digits conf.xlen 0x1000 (9 : Addr).toNat = some checkVector := by
  refine ⟨⟨_, .tail _ _ _ (.refl _) rfl, by decide⟩, by decide⟩

theorem witness_Runs : CapNeedsPath conf ∧ [assemble [.csum], assemble [.forcesw, .name]].length ≤ 256 ∧
    StreamsFit [assemble [.csum], assemble [.forcesw, .name]] ∧
    stepBound conf [assemble [.csum], assemble [.forcesw, .name]] = 8 := by
  refine ⟨by simp [CapNeedsPath, conf, Inputs.default], by decide, ?_, by decide⟩
  unfold StreamsFit
  decide

/-- FaultEntryWritesTheRecordOnly: a port with a word at its PC. -/
theorem witness_FaultEntry :
    (blockOf conf [portOf [.swByte]]).ports[(blockOf conf [portOf [.swByte]]).cur]? = some (portOf [.swByte]) ∧
    (portOf [.swByte]).stream[(portOf [.swByte]).pc.toNat]? = some 0x00000012 := by decide

/-- CommandsFaultWholeOrNotAtAll and the frames: a command that ends in a fault, and one that does not. -/
theorem witness_Commands :
    (∃ t, exec .getc (blockOf conf [freshPort [.getc]]) = .next t) ∧
    (∃ t, exec .csum (doneBlock conf .hw [portOf [.csum]]) = .next t) ∧
    (∃ t, exec .forcesw (doneBlock conf .hw [{ portOf [.forcesw] with ph := .forceSet }, freshPort [.csum]]) = .next t) ∧
    (doneBlock conf .hw [{ portOf [.forcesw] with ph := .forceSet }, freshPort [.csum]]).ports[1]? =
      some (freshPort [.csum]) :=
  ⟨next_of_outState (by decide), next_of_outState (by decide +kernel), next_of_outState (by decide), by decide⟩

/-- LdaAndLdlSetTheBuffer: the widest immediate and, at XLEN = 32, the first too wide one. -/
theorem witness_LdaLdl :
    (0xFFFFFFFFFFFFFFFF : Addr).toNat < 2 ^ conf.xlen.bits ∧ conf.xlen = .x64 ∧ narrow.xlen = .x32 ∧
    2 ^ narrow.xlen.bits ≤ (0x100000000 : Addr).toNat ∧ (0xFFFFFFFF : Addr).toNat < 2 ^ narrow.xlen.bits := by decide

/-- The registers of LdcAndGetcMoveTheAccumulator, AccumulatorCommandsFollowTheirRules and the fold commands, written and
unwritten. -/
theorem witness_Registers :
    (blockOf conf [portOf [.getc]]).ports[(blockOf conf [portOf [.getc]]).cur]? = some (portOf [.getc]) ∧
    (portOf [.getc]).c = some 0xFFFFFFFF ∧ (portOf [.getc]).addr = some 0x1000 ∧ (portOf [.getc]).len = some 9 ∧
    (freshPort [.getc]).c = none ∧ (freshPort [.getc]).addr = none ∧ (freshPort [.getc]).len = none := by decide

/-- SwByteFoldsOneBufferByte, SwCrcGivesTheSoftwareChecksum, BytewiseFoldingEqualsSwCrc, the buffers of HW.CRC and CSUM and
HwRunExpansionEqualsHwCrc: a readable byte, a readable buffer, an unreadable byte. -/
theorem witness_Buffers :
    readOk digits conf.xlen 0x1000 1 = some [0x31] ∧ readOk digits conf.xlen 0x1000 (9 : Addr).toNat = some checkVector ∧
    Memory.read digits conf.xlen 0x1009 1 = .error (.memFault 0x1009) ∧ 1 ≤ (1 : Addr).toNat ∧ (0 : Addr).toNat < 1 ∧
    (9 : Addr) ≠ 0 ∧ conf.xlen = .x64 ∧ conf.hwPath = true ∧ conf.cap = true := by decide

/-- ChunkCommandsFollowTheTemplate and HwCrcRunsTheHardwareEngine: each width's smallest length, one
less, and each configuration. -/
theorem witness_Chunks :
    (1 ≤ (1 : Addr).toNat ∧ 2 ≤ (2 : Addr).toNat ∧ 4 ≤ (4 : Addr).toNat ∧ 8 ≤ (8 : Addr).toNat) ∧
    ((0 : Addr).toNat < 1 ∧ (1 : Addr).toNat < 2 ∧ (3 : Addr).toNat < 4 ∧ (7 : Addr).toNat < 8) ∧
    readOk digits conf.xlen 0x1001 8 = some [0x32, 0x33, 0x34, 0x35, 0x36, 0x37, 0x38, 0x39] ∧
    Memory.read digits conf.xlen 0x1002 8 = .error (.memFault 0x1009) ∧
    (incapable.hwPath = true ∧ incapable.cap = false) ∧ softOnly.hwPath = false ∧ narrow.xlen = .x32 := by decide

/-- DecisionFollowsOverrideThenCapability: each row of 95_test_vectors.md section 2.7.1's outcomes. -/
theorem witness_Decision : decideSel true .absent true = .sw ∧ decideSel false .sw true = .sw ∧
    decideSel false .hw true = .hw ∧ decideSel false .other true = .hw ∧ decideSel false .hw false = .sw := by decide

/-- DispatchCommandsInitializeFirst: NONE, BUSY at the owner, BUSY at another port. -/
theorem witness_Protocol :
    (blockOf conf [portOf [.csum]]).init = .none ∧
    ((busyBlock conf [portOf [.csum]]).init = .busy ∧
      (busyBlock conf [portOf [.csum]]).initOwner.toNat = (busyBlock conf [portOf [.csum]]).cur) ∧
    ((busyBlock conf [portOf [.csum], portOf [.name]]).initOwner.toNat ≠
      ({ busyBlock conf [portOf [.csum], portOf [.name]] with cur := 1 } : State).cur) ∧
    ({ portOf [.forcesw] with ph := .forceSet } : Port).ph = .forceSet := by decide

/-- CsumRunsTheSelectedEngine, CsumValueIsTheSoftwareChecksumOnConformingHardware, CsumReadsOnlyTheCachedDecision,
NameReportsTheSelector: SEL = HW, SEL = SW, and a stale port with each way of drawing. -/
theorem witness_Csum :
    ((doneBlock conf .hw [portOf [.csum]]).init = .done ∧ (doneBlock conf .hw [portOf [.csum]]).sel = .hw) ∧
    ((doneBlock conf .sw [portOf [.csum]]).sel ≠ .hw ∧ (portOf [.csum]).stale = false) ∧
    (({ portOf [.csum] with stale := true } : Port).stale = true ∧
      (doneBlock conf .sw [{ portOf [.csum] with stale := true }]).draws = .hw :: [.sw]) ∧
    ({ doneBlock conf .sw [{ portOf [.csum] with stale := true }] with draws := [] } : State).draws = [] := by decide

/-- ForceswSetsTheFlagThenTheSelector, SelfcheckFirstBodyStep, SelfcheckSecondBodyStep: each phase. -/
theorem witness_Phases :
    (portOf [.forcesw]).ph = .ready ∧ ({ portOf [.forcesw] with ph := .forceSet } : Port).ph = .forceSet ∧
    ({ portOf [.selfcheck] with ph := .scMatch } : Port).ph = .scMatch ∧
    ({ portOf [.selfcheck] with ph := .scMismatch } : Port).ph = .scMismatch ∧
    (doneBlock conf .hw [portOf [.selfcheck]]).sel = .hw ∧ (doneBlock conf .sw [portOf [.selfcheck]]).sel ≠ .hw ∧
    (doneBlock conf .sw [portOf [.selfcheck]]).init = .done := by decide

/-- InvariantsHoldAtReset and ResetLeavesTheStatedValues. -/
theorem witness_Reset : CapNeedsPath softOnly ∧ StreamsFit [[0x00000040], []] ∧
    (State.launch softOnly [] [[0x00000040], []]).ports[0]? = some (Port.reset [0x00000040]) :=
  ⟨fun _ => rfl, by unfold StreamsFit; decide, rfl⟩

/-- StepKeepsRegistersWithinXlen, StepKeepsPcWithinTheStream and FaultRecordsAreStickyAndInOrder: the invariants hold of a
block with a faulted port whose other port has a step. -/
theorem witness_Invariants :
    RegistersFit (blockOf conf [portOf [.swByte], (freshPort [.getc]).raise .uninitReg]) ∧
    PcWithinStream (blockOf conf [portOf [.swByte], (freshPort [.getc]).raise .uninitReg]) ∧
    FaultRecordsOk (blockOf conf [portOf [.swByte], (freshPort [.getc]).raise .uninitReg]) ∧
    ((freshPort [.getc]).raise .uninitReg).faulted = true ∧
    ∃ t, step (blockOf conf [portOf [.swByte], (freshPort [.getc]).raise .uninitReg]) = .next t := by
  refine ⟨?_, by unfold PcWithinStream; decide, by unfold FaultRecordsOk faultRecordOk; decide, by decide,
    next_of_outState (by decide +kernel)⟩
  intro p hp
  simp only [blockOf, List.mem_cons, List.not_mem_nil, or_false] at hp
  rcases hp with rfl | rfl
  · refine ⟨?_, ?_, ?_⟩ <;> intro a ha <;> cases ha <;> decide
  · refine ⟨?_, ?_, ?_⟩ <;> intro a ha <;> cases ha

end Sys2Proof.Tests
end

section
/-! Proofs about the state (10_state.md). First what one step of the scheduled port is, then what it leaves of every port. -/

namespace Sys2Proof.Machine

/-! ### The step of the scheduled port -/

/-- Port `cur` of `s` takes its step to `t`: it has a word to fetch and no fault, and runs the command its words spell or
takes ILLEGAL_CMD. -/
structure PortStep (s t : State) : Prop where
  present : s.ports[s.cur]? = some s.me
  unfaulted : s.me.faulted = false
  hasWord : s.me.pc.toNat < s.me.stream.length
  result : (∃ i, s.me.fetch s.inp = .ok i ∧ Effect s i t) ∨
    ((∃ e, s.me.fetch s.inp = .error e) ∧ t = s.raise .illegalCmd)

/-- Every step of the block is the step of the port it picks. -/
theorem portStep_of_step {s t : State} (h : step s = .next t) : ∃ n, s.pick = some n ∧ PortStep (s.select n) t := by
  obtain ⟨n, p, hpick, hn, rfl, hfault, hword, -, hresult⟩ := step_effect h
  exact ⟨n, hpick, hn, hfault, hword, hresult⟩

theorem Effect.inp_eq {s t : State} {i : Instr} (h : Effect s i t) : t.inp = s.inp := by
  cases h <;> rfl

theorem PortStep.inp_eq {s t : State} (h : PortStep s t) : t.inp = s.inp := by
  rcases h.result with ⟨i, -, he⟩ | ⟨-, rfl⟩
  · exact he.inp_eq
  · rfl

/-! ### The other ports -/

/-- The executing port is replaced, and switching to software may have made the others stale. -/
theorem Effect.ports_eq_set {s t : State} {i : Instr} (h : Effect s i t) (hp : s.ports[s.cur]? = some s.me) :
    ∃ q, t.ports = s.ports.set s.cur q ∨ t.ports = s.stalePorts.set s.cur q := by
  have hset : s.ports = s.ports.set s.cur s.me := by
    obtain ⟨hlt, heq⟩ := List.getElem?_eq_some_iff.mp hp
    rw [← heq, List.set_getElem_self]
  cases h with
  | claim => exact ⟨s.me, .inl hset⟩
  | decide => exact ⟨s.me, .inl hset⟩
  | forceBody => exact ⟨_, .inr rfl⟩
  | checkFail => exact ⟨_, .inr rfl⟩
  | _ => exact ⟨_, .inl rfl⟩

/-- A step leaves every other port as it is, or sets its STALE. -/
theorem PortStep.other_port {s t : State} (h : PortStep s t) {n : Nat} (hn : n ≠ s.cur) :
    t.ports[n]? = s.ports[n]? ∨ t.ports[n]? = s.ports[n]?.map fun p => { p with stale := true } := by
  have hset : ∃ q, t.ports = s.ports.set s.cur q ∨ t.ports = s.stalePorts.set s.cur q := by
    rcases h.result with ⟨i, -, he⟩ | ⟨-, rfl⟩
    · exact he.ports_eq_set h.present
    · exact ⟨_, .inl rfl⟩
  obtain ⟨q, hq | hq⟩ := hset
  · exact .inl (by rw [hq, List.getElem?_set_ne hn.symm])
  · rw [hq, List.getElem?_set_ne hn.symm, State.getElem?_stalePorts]
    by_cases hs : s.sel = .hw
    · exact .inr (by simp [hs, hn])
    · exact .inl (by simp [hs])

/-- A predicate of ports that looks at no STALE is kept by a step that keeps it at the executing port. -/
theorem PortStep.forall_ports {s t : State} {P : Port → Prop} (h : PortStep s t)
    (hstale : ∀ p, P p → P { p with stale := true }) (hs : ∀ p ∈ s.ports, P p)
    (hme : ∀ q, t.ports[s.cur]? = some q → P q) : ∀ q ∈ t.ports, P q := by
  intro q hq
  obtain ⟨n, hn⟩ := List.mem_iff_getElem?.mp hq
  by_cases hc : n = s.cur
  · exact hme q (hc ▸ hn)
  · rcases h.other_port hc with ho | ho <;> rw [ho] at hn
    · exact hs q (List.mem_of_getElem? hn)
    · obtain ⟨p, hp, rfl⟩ := Option.map_eq_some_iff.mp hn
      exact hstale p (hs p (List.mem_of_getElem? hp))

/-! ### The executing port -/

/-- What a step of `i` that takes no fault leaves of the executing port (10_state.md R14 to R21): which command writes
which register, and within which bounds. A field not given is the port's own. -/
structure PortFrame (s : State) (i : Instr) (q : Port) : Prop where
  stream : q.stream = s.me.stream := by rfl
  faulted : q.faulted = s.me.faulted := by rfl
  err : q.err = s.me.err := by rfl
  faultPc : q.faultPc = s.me.faultPc := by rfl
  faultCmd : q.faultCmd = s.me.faultCmd := by rfl
  faultAddr : q.faultAddr = s.me.faultAddr := by rfl
  pc : q.pc = s.me.pc ∨ q.pc = s.me.pc + BitVec.ofNat 32 i.format.words := by exact .inl rfl
  addr : q.addr = s.me.addr ∨ (i ∈ [Instr.swByte, .hwU8, .hwU16, .hwU32, .hwU64] ∨ ∃ v, i = .lda v) ∧
    fitsReg s.inp.xlen q.addr := by exact .inl rfl
  len : q.len = s.me.len ∨ (i ∈ [Instr.swByte, .hwU8, .hwU16, .hwU32, .hwU64] ∨ ∃ v, i = .ldl v) ∧
    (fitsReg s.inp.xlen s.me.len → fitsReg s.inp.xlen q.len) := by exact .inl rfl
  c : q.c = s.me.c ∨ i ∈ [Instr.crcInit, .swStep, .swByte, .hwU8, .hwU16, .hwU32, .hwU64] ∨ ∃ v, i = .ldc v := by
    exact .inl rfl
  r : q.r = s.me.r ∨ i ∈ [Instr.getc, .crcFinal, .swCrc, .hwCrc, .hwavail, .csum, .name, .selfcheck] := by
    exact .inl rfl
  ph : q.ph = s.me.ph ∨ i ∈ [Instr.forcesw, .selfcheck] := by exact .inl rfl
  stale : q.stale = s.me.stale ∨ i ∈ [Instr.csum, .name, .forcesw, .selfcheck] := by exact .inl rfl
  scs : q.scs = s.me.scs ∨ i = .selfcheck := by exact .inl rfl

theorem fitsReg_some {x : Xlen} {v : Addr} : fitsReg x (some v) ↔ v.toNat < 2 ^ x.bits := by
  simp [fitsReg]

theorem fitsReg_none (x : Xlen) : fitsReg x none := by
  simp [fitsReg]

/-- An address sum is an XLEN-bit value (00_scope.md R8). -/
theorem addrAdd_lt (x : Xlen) (a : Addr) (n : Nat) : (addrAdd x a n).toNat < 2 ^ x.bits := by
  have hmod : (a.toNat + n) % 2 ^ x.bits < 2 ^ x.bits := Nat.mod_lt _ (by positivity)
  rw [addrAdd, BitVec.toNat_ofNat]
  exact lt_of_le_of_lt (Nat.mod_le _ _) hmod

/-- LEN only shrinks under a chunk. -/
theorem toNat_sub_ofNat_le {len : Addr} {n : Nat} (h : n ≤ len.toNat) : (len - BitVec.ofNat 64 n).toNat ≤ len.toNat := by
  have hlen := len.isLt
  rw [BitVec.toNat_sub_of_le (by rw [BitVec.le_def, BitVec.toNat_ofNat]; omega)]
  omega

/-- All commands but the three with an immediate are one word long (30_encoding.md R47). -/
theorem pc_of_oneWord {i : Instr} {l : List Instr} (hi : i ∈ l) (hl : ∀ j ∈ l, j.format.words = 1)
    (pc : BitVec 32) :
    pc + 1 = pc + BitVec.ofNat 32 i.format.words := by
  rw [hl i hi]; rfl

/-- The chunk commands and SW.BYTE write C, ADDR and LEN (40_sw_engine.md R63, 41_hw_engine.md R74). -/
theorem PortFrame.of_foldChunk {s : State} {i : Instr} {n : Nat} {f : Word → Addr → List Byte → Word} {q : Port}
    (hi : i ∈ [Instr.swByte, .hwU8, .hwU16, .hwU32, .hwU64]) (h : s.me.foldChunk s.inp s.mem n f = .ok q) :
    PortFrame s i q := by
  obtain ⟨c, a, len, bs, -, -, hlen, hn, -, rfl⟩ := Port.foldChunk_ok.mp h
  have hfit : fitsReg s.inp.xlen s.me.len → fitsReg s.inp.xlen (some (len - BitVec.ofNat 64 n)) := by
    rw [hlen, fitsReg_some, fitsReg_some]
    exact lt_of_le_of_lt (toNat_sub_ofNat_le hn)
  exact {
    pc := .inr (pc_of_oneWord hi (by decide) _)
    addr := .inr ⟨.inl hi, fitsReg_some.mpr (addrAdd_lt _ _ _)⟩
    len := .inr ⟨.inl hi, hfit⟩
    c := .inr (.inl (List.mem_cons_of_mem _ (List.mem_cons_of_mem _ hi))) }

/-- What a command leaves of the executing port: its fault taken, or the frame of the command. -/
theorem Effect.executing_port {s t : State} {i : Instr} {q : Port} (h : Effect s i t)
    (hp : s.ports[s.cur]? = some s.me) (hq : t.ports[s.cur]? = some q) :
    (∃ e, faultSource s e ∧ t = s.raise e ∧ q = s.me.raise e) ∨ PortFrame s i q := by
  obtain ⟨hlt, -⟩ := List.getElem?_eq_some_iff.mp hp
  have hset : ∀ {l : List Port} {r : Port}, l.length = s.ports.length → (l.set s.cur r)[s.cur]? = some q → q = r := by
    intro l r hl h
    rw [List.getElem?_set_self (hl ▸ hlt)] at h
    exact (Option.some.inj h).symm
  cases h with
  | fault i e he => exact .inl ⟨e, he, rfl, hset rfl hq⟩
  | lda v hv =>
    obtain rfl := hset rfl hq
    exact .inr { pc := .inr rfl, addr := .inr ⟨.inr ⟨v, rfl⟩, fitsReg_some.mpr hv⟩ }
  | ldl v hv =>
    obtain rfl := hset rfl hq
    exact .inr { pc := .inr rfl, len := .inr ⟨.inr ⟨v, rfl⟩, fun _ => fitsReg_some.mpr hv⟩ }
  | ldc v =>
    obtain rfl := hset rfl hq
    exact .inr { pc := .inr rfl, c := .inr (.inr ⟨v, rfl⟩) }
  | accumulator i v hi =>
    obtain rfl := hset rfl hq
    exact .inr { pc := .inr (pc_of_oneWord hi (by decide) _), c := .inr (.inl (List.mem_append_left _ hi)) }
  | result i v hi =>
    obtain rfl := hset rfl hq
    exact .inr { pc := .inr (pc_of_oneWord hi (by decide) _), r := .inr (List.mem_append_left _ hi) }
  | chunk i n f r hi hr =>
    obtain rfl := hset rfl hq
    exact .inr (.of_foldChunk hi hr)
  | claim =>
    obtain rfl := Option.some.inj (hp.symm.trans hq)
    exact .inr {}
  | decide =>
    obtain rfl := Option.some.inj (hp.symm.trans hq)
    exact .inr {}
  | csum v =>
    obtain rfl := hset rfl hq
    exact .inr { pc := .inr rfl, r := .inr (by simp), stale := .inr (by simp) }
  | name =>
    obtain rfl := hset rfl hq
    exact .inr { pc := .inr rfl, r := .inr (by simp), stale := .inr (by simp) }
  | forceFlag =>
    obtain rfl := hset rfl hq
    exact .inr { ph := .inr (by simp) }
  | forceBody =>
    obtain rfl := hset s.stalePorts_length hq
    exact .inr { pc := .inr rfl, ph := .inr (by simp), stale := .inr (by simp) }
  | nothingToCheck =>
    obtain rfl := hset rfl hq
    exact .inr { pc := .inr rfl, r := .inr (by simp), stale := .inr (by simp), scs := .inr rfl }
  | compare =>
    obtain rfl := hset rfl hq
    exact .inr { ph := .inr (by simp), stale := .inr (by simp) }
  | checkPass =>
    obtain rfl := hset rfl hq
    exact .inr { pc := .inr rfl, r := .inr (by simp), ph := .inr (by simp), scs := .inr rfl }
  | checkFail =>
    obtain rfl := hset s.stalePorts_length hq
    exact .inr { pc := .inr rfl, r := .inr (by simp), ph := .inr (by simp), scs := .inr rfl }

/-- What a step leaves of the executing port: a fault taken, or the frame of the command its words spell. -/
theorem PortStep.executing_port {s t : State} {q : Port} (h : PortStep s t) (hq : t.ports[s.cur]? = some q) :
    (∃ e, faultSource s e ∧ q = s.me.raise e) ∨ ∃ i, s.me.fetch s.inp = .ok i ∧ PortFrame s i q := by
  rcases h.result with ⟨i, hi, he⟩ | ⟨-, rfl⟩
  · rcases he.executing_port h.present hq with ⟨e, hs, -, hqe⟩ | hf
    · exact .inl ⟨e, hs, hqe⟩
    · exact .inr ⟨i, hi, hf⟩
  · rw [State.raise, State.getElem?_setMe h.present] at hq
    exact .inl ⟨.illegalCmd, .inl (by simp), (Option.some.inj hq).symm⟩

end Sys2Proof.Machine
end

section
/-! The frame and the per-port invariants: each from what a step leaves of the executing port and of the others. -/

namespace Sys2Proof.Machine

/-- Settles O44: a fault writes the record alone, and otherwise the command's frame holds. -/
theorem commandsWriteOnlyTheirRegisters : Obligations.CommandsWriteOnlyTheirRegisters := by
  intro i s t p q hp h hq
  obtain rfl := State.me_of_getElem? hp
  rcases (exec_effect h).executing_port hp hq with ⟨e, -, -, rfl⟩ | hf
  · exact ⟨.inl rfl, .inl rfl, .inl rfl, .inl rfl, .inl rfl, .inl rfl, .inl rfl, rfl⟩
  · exact ⟨hf.addr.imp_right And.left, hf.len.imp_right And.left, hf.c, hf.r, hf.ph, hf.stale, hf.scs, hf.stream⟩

/-! ### Registers within XLEN bits (10_state.md R16, R21) -/

/-- ADDR, LEN and FAULT_ADDR of one port hold XLEN-bit values. -/
def Port.registersFit (x : Xlen) (p : Port) : Prop :=
  fitsReg x p.addr ∧ fitsReg x p.len ∧ fitsReg x p.faultAddr

/-- A fault records an XLEN-bit address where ADDR holds one. -/
theorem fitsReg_faultAddr_raise {s : State} {e : Trap} (he : faultSource s e) (h : s.me.registersFit s.inp.xlen) :
    fitsReg s.inp.xlen (s.me.raise e).faultAddr := by
  obtain ⟨haddr, -, hfault⟩ := h
  cases e with
  | memFault a =>
    rcases he with hn | ⟨b, n, hb, hr⟩
    · exact absurd rfl (hn a)
    · obtain ⟨c, hc, hlt⟩ := Memory.error_of_read hr (haddr b hb)
      cases hc
      exact fitsReg_some.mpr hlt
  | illegalCmd => exact hfault
  | hwUnsupported => exact hfault
  | uninitReg => exact hfault
  | lenUnderflow => exact hfault

theorem PortFrame.registersFit {s : State} {i : Instr} {q : Port} (hf : PortFrame s i q)
    (h : s.me.registersFit s.inp.xlen) : q.registersFit s.inp.xlen := by
  obtain ⟨haddr, hlen, hfault⟩ := h
  refine ⟨?_, ?_, hf.faultAddr ▸ hfault⟩
  · rcases hf.addr with heq | ⟨-, hfit⟩
    · exact heq ▸ haddr
    · exact hfit
  · rcases hf.len with heq | ⟨-, hfit⟩
    · exact heq ▸ hlen
    · exact hfit hlen

/-- Settles O51. -/
theorem stepKeepsRegistersWithinXlen : Obligations.StepKeepsRegistersWithinXlen := by
  intro s t hs h
  obtain ⟨n, -, hstep⟩ := portStep_of_step h
  have hme : (s.select n).me.registersFit s.inp.xlen := hs _ (List.mem_of_getElem? hstep.present)
  have ⟨haddr, hlen, _⟩ := hme
  unfold RegistersFit
  rw [hstep.inp_eq]
  refine hstep.forall_ports (P := Port.registersFit s.inp.xlen) (fun p hp => hp) hs fun q hq => ?_
  rcases hstep.executing_port hq with ⟨e, he, rfl⟩ | ⟨i, -, hf⟩
  · exact ⟨haddr, hlen, fitsReg_faultAddr_raise he hme⟩
  · exact hf.registersFit hme

/-! ### PC within the stream (10_state.md R17, 30_encoding.md R48) -/

theorem two_le_length_of_immA {inp : Inputs} {ext : List Word} {a : Addr} (h : immA inp ext = .ok a) :
    2 ≤ ext.length := by
  rcases ext with _ | ⟨lo, _ | ⟨hi, rest⟩⟩
  · cases h
  · cases h
  · simp

theorem one_le_length_of_immC {ext : List Word} {v : Word} (h : immC ext = .ok v) : 1 ≤ ext.length := by
  rcases ext with _ | ⟨imm, rest⟩
  · cases h
  · simp

theorem eq_of_chunkDecode {inp : Inputs} {w : ChunkWidth} {i j : Instr} (h : chunkDecode inp w i = .ok j) : j = i := by
  unfold chunkDecode at h
  split_ifs at h
  exact (Except.ok.inj h).symm

theorem exists_of_map_ok {α β : Type} {f : α → β} {x : Except DecodeError α} {b : β} (h : x.map f = .ok b) :
    ∃ a, x = .ok a ∧ f a = b := by
  cases x with
  | error e => cases h
  | ok a => exact ⟨a, rfl, Except.ok.inj h⟩

/-- A decoded command has its extension words (30_encoding.md R48). -/
theorem words_le_of_decodeOp {inp : Inputs} {op : Nat} {ext : List Word} {i : Instr} (h : decodeOp inp op ext = .ok i) :
    i.format.words ≤ ext.length + 1 := by
  have oneWord : ∀ {j : Instr}, j.format.words = 1 → i = j → i.format.words ≤ ext.length + 1 := by
    rintro j hj rfl
    omega
  unfold decodeOp at h
  split at h
  case h_1 | h_2 =>
    obtain ⟨a, ha, rfl⟩ := exists_of_map_ok h
    exact Nat.succ_le_succ (two_le_length_of_immA ha)
  case h_3 =>
    obtain ⟨v, hv, rfl⟩ := exists_of_map_ok h
    exact Nat.succ_le_succ (one_le_length_of_immC hv)
  case h_10 | h_11 | h_12 | h_13 => exact oneWord rfl (eq_of_chunkDecode h)
  case h_20 => cases h
  all_goals exact oneWord rfl (Except.ok.inj h).symm

/-- A fetched command ends within the stream (30_encoding.md R48). -/
theorem pc_add_words_le_of_fetch {p : Port} {inp : Inputs} {i : Instr} (h : p.fetch inp = .ok i) :
    p.pc.toNat + i.format.words ≤ p.stream.length := by
  unfold Port.fetch at h
  cases hw : p.stream.drop p.pc.toNat with
  | nil => rw [hw] at h; cases h
  | cons w ext =>
    rw [hw, decode] at h
    split_ifs at h
    have hwords := words_le_of_decodeOp h
    have hlen : p.stream.length - p.pc.toNat = ext.length + 1 := by rw [← List.length_drop, hw, List.length_cons]
    omega

/-- PC of one port stays within its stream, which is shorter than 2^32 words. -/
def Port.pcWithinStream (p : Port) : Prop := p.pc.toNat ≤ p.stream.length ∧ p.stream.length < 2 ^ 32

/-- Past a command that ends within the stream PC does not wrap. -/
theorem PortFrame.pcWithinStream {s : State} {i : Instr} {q : Port} (hf : PortFrame s i q)
    (hi : s.me.fetch s.inp = .ok i) (h : s.me.pcWithinStream) : q.pcWithinStream := by
  have hend := pc_add_words_le_of_fetch hi
  obtain ⟨hle, hlt⟩ := h
  unfold Port.pcWithinStream
  rw [hf.stream]
  rcases hf.pc with hpc | hpc <;> rw [hpc]
  · exact ⟨hle, hlt⟩
  · rw [BitVec.toNat_add, BitVec.toNat_ofNat]
    omega

/-- Settles O52. -/
theorem stepKeepsPcWithinTheStream : Obligations.StepKeepsPcWithinTheStream := by
  intro s t hs h
  obtain ⟨n, -, hstep⟩ := portStep_of_step h
  have hme : (s.select n).me.pcWithinStream := hs _ (List.mem_of_getElem? hstep.present)
  refine hstep.forall_ports (P := Port.pcWithinStream) (fun p hp => hp) hs fun q hq => ?_
  rcases hstep.executing_port hq with ⟨e, -, rfl⟩ | ⟨i, hi, hf⟩
  · exact hme
  · exact hf.pcWithinStream hi hme

/-! ### Fault records (10_state.md R21, 60_exceptions.md R104, R111) -/

/-- Fault entry at an unfaulted port with a word to fetch leaves its record in order. -/
theorem faultRecordOk_raise {p : Port} (e : Trap) (h : faultRecordOk p) (hf : p.faulted = false)
    (hw : p.pc.toNat < p.stream.length) : faultRecordOk (p.raise e) := by
  obtain ⟨-, -, -, haddr⟩ := h.1 hf
  have hcmd : p.stream[p.pc.toNat]? = some (p.stream.getD p.pc.toNat 0) := by simp [hw]
  refine ⟨by simp, fun _ => ⟨by cases e <;> simp [Trap.code], rfl, hcmd, ?_⟩⟩
  cases e <;> simp [Port.raise, Trap.code, haddr]

/-- A step that takes no fault leaves an unfaulted port's record empty. -/
theorem PortFrame.faultRecordOk {s : State} {i : Instr} {q : Port} (hf : PortFrame s i q) (hu : s.me.faulted = false)
    (h : faultRecordOk s.me) : faultRecordOk q := by
  obtain ⟨herr, hpc, hcmd, haddr⟩ := h.1 hu
  have hq : q.faulted = false := hf.faulted.trans hu
  exact ⟨fun _ => ⟨hf.err.trans herr, hf.faultPc.trans hpc, hf.faultCmd.trans hcmd, hf.faultAddr.trans haddr⟩,
    fun hc => absurd hc (by simp [hq])⟩

/-- Every step keeps the fault records in order. -/
theorem faultRecordsOk_step {s t : State} (hs : FaultRecordsOk s) (h : step s = .next t) : FaultRecordsOk t := by
  obtain ⟨n, -, hstep⟩ := portStep_of_step h
  have hme : faultRecordOk (s.select n).me := hs _ (List.mem_of_getElem? hstep.present)
  refine hstep.forall_ports (P := faultRecordOk) (fun p hp => hp) hs fun q hq => ?_
  rcases hstep.executing_port hq with ⟨e, -, rfl⟩ | ⟨i, -, hf⟩
  · exact faultRecordOk_raise e hme hstep.unfaulted hstep.hasWord
  · exact hf.faultRecordOk hstep.unfaulted hme

/-- Settles O53: the stepping port is not faulted, so a faulted port is another one. -/
theorem faultRecordsAreStickyAndInOrder : Obligations.FaultRecordsAreStickyAndInOrder := by
  refine ⟨fun s t => faultRecordsOk_step, fun s t m p h hp hf => ?_⟩
  obtain ⟨n, -, hstep⟩ := portStep_of_step h
  have hne : m ≠ n := by
    rintro rfl
    have hme := State.me_of_getElem? (s := s.select m) hp
    have hu := hstep.unfaulted
    rw [hme, hf] at hu
    cases hu
  have hother := hstep.other_port hne
  rw [State.select_ports, hp] at hother
  exact hother

/-! ### Scheduling (10_state.md R13) -/

/-- Every element of the list is chosen by some choice. -/
theorem exists_chooseFrom_of_mem {n : Nat} : ∀ {l : List Nat}, n ∈ l → ∃ k, chooseFrom l k = some n
  | [p], h => ⟨0, by rw [List.mem_singleton.mp h]; rfl⟩
  | p :: q :: rest, h => by
    rcases List.mem_cons.mp h with rfl | hrest
    · exact ⟨0, rfl⟩
    · obtain ⟨k, hk⟩ := exists_chooseFrom_of_mem hrest
      exact ⟨k + 1, hk⟩

/-- Settles O18: which ports are enabled does not depend on the tape, and the tape's choice reaches each of them. -/
theorem anyEnabledPortMayTakeTheNextStep : Obligations.AnyEnabledPortMayTakeTheNextStep :=
  ⟨fun _ _ h => exists_chooseFrom_of_mem (State.mem_enabledPorts.mpr h), fun _ _ => State.enabled_of_pick⟩

/-! ### Reset (10_state.md R30) -/

theorem eq_reset_of_mem_launch {inp : Inputs} {m : Memory} {streams : List (List Word)} {p : Port}
    (h : p ∈ (State.launch inp m streams).ports) : ∃ ws ∈ streams, p = Port.reset ws := by
  obtain ⟨ws, hws, hp⟩ := List.mem_map.mp h
  exact ⟨ws, hws, hp.symm⟩

/-- Settles O48. -/
theorem resetLeavesTheStatedValues : Obligations.ResetLeavesTheStatedValues := by
  intro inp m streams
  refine ⟨rfl, rfl, rfl, rfl, rfl, rfl, List.length_map _, fun n p hp => ?_⟩
  obtain ⟨ws, hws, rfl⟩ := Option.map_eq_some_iff.mp ((List.getElem?_map).symm.trans hp)
  exact ⟨rfl, rfl, rfl, rfl, rfl, rfl, rfl, rfl, rfl, rfl, rfl, rfl, rfl, hws⟩

theorem dispatchInv_launch {inp : Inputs} {m : Memory} {streams : List (List Word)} (hcap : CapNeedsPath inp)
    (hcount : streams.length ≤ 256) : DispatchInv (State.launch inp m streams) where
  portCount := by simpa [State.launch] using hcount
  capNeedsPath := hcap
  undecidedIff := by simp [State.launch]
  hwCapable := by simp [State.launch]
  owner := by simp [State.launch]
  ownerIdle _ := rfl
  phases p hp := by
    obtain ⟨ws, -, rfl⟩ := eq_reset_of_mem_launch hp
    simp [phaseOk, Port.reset]
  stale p hp hstale := by
    obtain ⟨ws, -, rfl⟩ := eq_reset_of_mem_launch hp
    cases hstale

/-- Settles O49. -/
theorem invariantsHoldAtReset : Obligations.InvariantsHoldAtReset := by
  intro inp m streams hcap hcount hfit
  refine ⟨dispatchInv_launch hcap hcount, ?_, ?_, ?_⟩ <;> intro p hp <;>
    obtain ⟨ws, hws, rfl⟩ := eq_reset_of_mem_launch hp
  · exact ⟨fitsReg_none _, fitsReg_none _, fitsReg_none _⟩
  · exact ⟨Nat.zero_le _, hfit ws hws⟩
  · exact ⟨fun _ => ⟨rfl, rfl, rfl, rfl⟩, fun hf => nomatch hf⟩

/-! ### Observation (10_state.md R27, R28) -/

theorem ofBool_eq_ite (b : Bool) : BitVec.ofBool b = if b then 1 else 0 := by
  cases b <;> rfl

theorem dstat_fields (s : State) :
    s.dstat.extractLsb' 0 2 = s.sel.code ∧ s.dstat.extractLsb' 2 1 = BitVec.ofBool s.force ∧
    s.dstat.extractLsb' 3 2 = s.init.code ∧ s.dstat.extractLsb' 5 3 = 0 ∧
    s.dstat.extractLsb' 8 8 = s.initOwner ∧ s.dstat.extractLsb' 16 16 = 0 := by
  unfold State.dstat
  refine ⟨?_, ?_, ?_, ?_, ?_, ?_⟩ <;> repeat rw [BitVec.extractLsb'_append_eq_of_le (by decide)]
  exacts [BitVec.extractLsb'_append_eq_right, BitVec.extractLsb'_append_eq_right, BitVec.extractLsb'_append_eq_right,
    BitVec.extractLsb'_append_eq_right, BitVec.extractLsb'_append_eq_right, BitVec.extractLsb'_eq_self]

theorem cfgWord_fields (inp : Inputs) :
    (cfgWord inp).extractLsb' 0 1 = BitVec.ofBool inp.cap ∧ (cfgWord inp).extractLsb' 1 1 = BitVec.ofBool inp.hwPath ∧
    (cfgWord inp).extractLsb' 2 2 = envCode inp.env ∧
    (cfgWord inp).extractLsb' 4 1 = BitVec.ofBool (inp.xlen == .x64) ∧ (cfgWord inp).extractLsb' 5 27 = 0 := by
  unfold cfgWord
  refine ⟨?_, ?_, ?_, ?_, ?_⟩ <;> repeat rw [BitVec.extractLsb'_append_eq_of_le (by decide)]
  exacts [BitVec.extractLsb'_append_eq_right, BitVec.extractLsb'_append_eq_right, BitVec.extractLsb'_append_eq_right,
    BitVec.extractLsb'_append_eq_right, BitVec.extractLsb'_eq_self]

theorem pstat_fields (p : Port) :
    p.pstat.extractLsb' 0 2 = p.scs.code ∧ p.pstat.extractLsb' 2 2 = p.ph.code ∧
    p.pstat.extractLsb' 4 1 = BitVec.ofBool p.stale ∧ p.pstat.extractLsb' 5 1 = BitVec.ofBool p.faulted ∧
    p.pstat.extractLsb' 6 2 = 0 ∧ p.pstat.extractLsb' 8 4 = p.err.code ∧ p.pstat.extractLsb' 12 20 = 0 := by
  unfold Port.pstat
  refine ⟨?_, ?_, ?_, ?_, ?_, ?_, ?_⟩ <;> repeat rw [BitVec.extractLsb'_append_eq_of_le (by decide)]
  exacts [BitVec.extractLsb'_append_eq_right, BitVec.extractLsb'_append_eq_right, BitVec.extractLsb'_append_eq_right,
    BitVec.extractLsb'_append_eq_right, BitVec.extractLsb'_append_eq_right, BitVec.extractLsb'_append_eq_right,
    BitVec.extractLsb'_eq_self]

/-- Settles O59: each field holds its code, and the codes are those of the tables. -/
theorem observationWordsHoldTheirFields : Obligations.ObservationWordsHoldTheirFields := by
  refine ⟨fun s => ?_, fun inp => ?_, fun p => ?_⟩
  · obtain ⟨hsel, hforce, hinit, hlow, howner, hhigh⟩ := dstat_fields s
    refine ⟨hsel.trans ?_, hforce.trans (ofBool_eq_ite _), hinit.trans ?_, hlow, howner, hhigh⟩
    · cases s.sel <;> rfl
    · cases s.init <;> rfl
  · obtain ⟨hcap, hpath, henv, hxlen, hhigh⟩ := cfgWord_fields inp
    refine ⟨hcap.trans (ofBool_eq_ite _), hpath.trans (ofBool_eq_ite _), henv.trans ?_, hxlen.trans ?_, hhigh⟩
    · cases inp.env <;> rfl
    · cases inp.xlen <;> rfl
  · obtain ⟨hscs, hph, hstale, hfaulted, hlow, herr, hhigh⟩ := pstat_fields p
    refine ⟨hscs.trans ?_, hph.trans ?_, hstale.trans (ofBool_eq_ite _), hfaulted.trans (ofBool_eq_ite _), hlow,
      herr.trans ?_, hhigh⟩
    · cases p.scs <;> rfl
    · cases p.ph <;> rfl
    · cases p.err <;> rfl

end Sys2Proof.Machine
end

section
/-! The shared dispatch state: how INIT and FORCE move, and the dispatch invariant. -/

namespace Sys2Proof.Machine

/-! ### The dispatch-triggering commands (43_dispatch.md R81) -/

theorem triggersDispatch_iff (i : Instr) :
    triggersDispatch i = true ↔ i ∈ [Instr.csum, .name, .forcesw, .selfcheck] := by
  cases i <;> simp [triggersDispatch]

theorem not_triggers_of_mem {i : Instr} {l : List Instr} (hi : i ∈ l)
    (hl : ∀ j ∈ l, triggersDispatch j = false := by decide) : triggersDispatch i = false :=
  hl i hi

/-! ### INIT (10_state.md R25, 43_dispatch.md R84, R87) -/

/-- A command moves INIT by the claim step and the owner's decide step alone. -/
theorem Effect.init_cases {s t : State} {i : Instr} (h : Effect s i t) :
    (t.init = s.init ∧ t.initOwner = s.initOwner) ∨ (s.init = .none ∧ t = s.claim) ∨
      (s.init = .busy ∧ s.initOwner.toNat = s.cur ∧ t = s.decideStep) := by
  cases h with
  | claim i _ _ hn => exact .inr (.inl ⟨hn, rfl⟩)
  | decide i _ _ hb ho => exact .inr (.inr ⟨hb, ho, rfl⟩)
  | _ => exact .inl ⟨rfl, rfl⟩

theorem PortStep.init_cases {s t : State} (h : PortStep s t) :
    (t.init = s.init ∧ t.initOwner = s.initOwner) ∨ (s.init = .none ∧ t = s.claim) ∨
      (s.init = .busy ∧ s.initOwner.toNat = s.cur ∧ t = s.decideStep) := by
  rcases h.result with ⟨i, -, he⟩ | ⟨-, rfl⟩
  · exact he.init_cases
  · exact .inl ⟨rfl, rfl⟩

theorem DispatchInv.select {s : State} (h : DispatchInv s) (n : Nat) : DispatchInv (s.select n) where
  portCount := h.portCount
  capNeedsPath := h.capNeedsPath
  undecidedIff := h.undecidedIff
  hwCapable := h.hwCapable
  owner := h.owner
  ownerIdle := h.ownerIdle
  phases := h.phases
  stale := h.stale

/-- INIT_OWNER's 8 bits hold the number of every port (10_state.md R27). -/
theorem DispatchInv.toNat_claim_initOwner {s : State} (h : DispatchInv s) (hp : s.ports[s.cur]? = some s.me) :
    s.claim.initOwner.toNat = s.cur := by
  obtain ⟨hlt, -⟩ := List.getElem?_eq_some_iff.mp hp
  have hcount := h.portCount
  rw [State.claim_initOwner, BitVec.toNat_ofNat]
  omega

/-- Settles O55. -/
theorem initializationHappensOnce : Obligations.InitializationHappensOnce := by
  intro s t hs h
  obtain ⟨n, hpick, hstep⟩ := portStep_of_step h
  rcases hstep.init_cases with ⟨hinit, howner⟩ | ⟨hn, rfl⟩ | ⟨hb, ho, rfl⟩
  · rw [State.select_init] at hinit
    rw [State.select_initOwner] at howner
    exact ⟨hinit.trans, fun hb => .inl ⟨hinit.trans hb, howner⟩, fun hn => .inl (hinit.trans hn)⟩
  · rw [State.select_init] at hn
    have hcur := (hs.select n).toNat_claim_initOwner hstep.present
    exact ⟨fun hd => absurd (hd.symm.trans hn) (by decide), fun hb => absurd (hb.symm.trans hn) (by decide),
      fun _ => .inr ⟨rfl, hcur.symm ▸ hpick⟩⟩
  · rw [State.select_init] at hb
    rw [State.select_initOwner, State.select_cur] at ho
    exact ⟨fun _ => rfl, fun _ => .inr ⟨rfl, ho.symm ▸ hpick⟩, fun hn => absurd (hn.symm.trans hb) (by decide)⟩

/-! ### FORCE (10_state.md R24) -/

/-- A command keeps FORCE, or is one of the four that set it. -/
theorem Effect.force_cases {s t : State} {i : Instr} (h : Effect s i t) :
    t.force = s.force ∨ t.force = true ∧
      ((i = .forcesw ∧ (s.me.ph = .ready ∨ s.me.ph = .forceSet)) ∨ (i = .selfcheck ∧ s.me.ph = .scMismatch) ∨
        (s.init = .busy ∧ s.initOwner.toNat = s.cur ∧ s.inp.env = .sw)) := by
  cases h with
  | decide i _ _ hb ho =>
    by_cases henv : s.inp.env = .sw
    · exact .inr ⟨by simp [henv], .inr (.inr ⟨hb, ho, henv⟩)⟩
    · exact .inl (by simp [henv])
  | forceFlag hr => exact .inr ⟨rfl, .inl ⟨rfl, .inl hr⟩⟩
  | forceBody _ hf => exact .inr ⟨rfl, .inl ⟨rfl, .inr hf⟩⟩
  | checkFail _ hm => exact .inr ⟨rfl, .inr (.inl ⟨rfl, hm⟩)⟩
  | _ => exact .inl rfl

/-- Settles O56: in FORCESW's body FORCE is set already, by the invariant of its phase. -/
theorem forceFlagIsStickyAndSetOnlyAsStated : Obligations.ForceFlagIsStickyAndSetOnlyAsStated := by
  intro s t hs h
  obtain ⟨n, hpick, hstep⟩ := portStep_of_step h
  rcases hstep.result with ⟨i, hi, he⟩ | ⟨-, rfl⟩
  · rcases he.force_cases with heq | ⟨hset, hwhy⟩
    · rw [State.select_force] at heq
      exact ⟨heq.trans, fun h0 h1 => absurd (heq.symm.trans h1) (by simp [h0])⟩
    · refine ⟨fun _ => hset, fun h0 _ => ⟨n, _, i, hpick, hstep.present, hi, ?_⟩⟩
      rcases hwhy with ⟨rfl, hr | hf⟩ | hm | ho
      · exact .inl ⟨rfl, hr⟩
      · have hphase := (hs.select n).phases _ (List.mem_of_getElem? hstep.present)
        exact absurd (hphase.1 hf).2 (by simp [h0])
      · exact .inr (.inl hm)
      · exact .inr (.inr ho)
  · exact ⟨fun h1 => h1, fun h0 h1 => absurd (h0.symm.trans h1) (by decide)⟩

/-! ### Phases and the owner under a step -/

/-- A phase stays in order while FORCE and a completed INIT stay. -/
theorem phaseOk.mono {s t : State} {p : Port} (h : phaseOk s p) (hinp : t.inp = s.inp)
    (hforce : s.force = true → t.force = true) (hinit : s.init = .done → t.init = .done) : phaseOk t p := by
  obtain ⟨hset, hcheck⟩ := h
  rw [← hinp] at hset hcheck
  exact ⟨fun hph => (hset hph).imp_right hforce, fun hph => (hcheck hph).imp_right hinit⟩

theorem phaseOk_of_ready (s : State) {p : Port} (h : p.ph = .ready) : phaseOk s p := by
  simp [phaseOk, h]

/-- Every command but FORCESW and SELFCHECK is fetched in READY alone (10_state.md R18). -/
theorem phaseOk.ready_of_fetch {s : State} {p : Port} {i : Instr} (h : phaseOk s p) (hi : p.fetch s.inp = .ok i)
    (hf : i ≠ .forcesw) (hc : i ≠ .selfcheck) : p.ph = .ready := by
  obtain ⟨hset, hcheck⟩ := h
  rw [hi] at hset hcheck
  cases hph : p.ph with
  | ready => rfl
  | forceSet => exact absurd (Except.ok.inj (hset hph).1) hf
  | scMatch => exact absurd (Except.ok.inj (hcheck (.inl hph)).1) hc
  | scMismatch => exact absurd (Except.ok.inj (hcheck (.inr hph)).1) hc

/-- What INIT's owner is (10_state.md R29 (d)). -/
def Port.canOwn (p : Port) (inp : Inputs) : Prop :=
  p.faulted = false ∧ (p.ph = .ready ∨ p.ph = .forceSet) ∧ ∃ i, p.fetch inp = .ok i ∧ triggersDispatch i = true

theorem ownerOk_iff {s : State} : ownerOk s ↔ ∃ p, s.ports[s.initOwner.toNat]? = some p ∧ p.canOwn s.inp :=
  ⟨fun ⟨p, i, hp, hf, hph, hi, ht⟩ => ⟨p, hp, hf, hph, i, hi, ht⟩,
    fun ⟨p, hp, hf, hph, i, hi, ht⟩ => ⟨p, i, hp, hf, hph, hi, ht⟩⟩

/-- While the executing port owns INIT it can. -/
theorem DispatchInv.canOwn_me {s : State} (h : DispatchInv s) (hb : s.init = .busy) (ho : s.initOwner.toNat = s.cur) :
    s.me.canOwn s.inp := by
  obtain ⟨p, hp, hown⟩ := ownerOk_iff.mp (h.owner hb)
  rw [ho] at hp
  rwa [State.me_of_getElem? hp]

/-! ### The dispatch invariant (10_state.md R29) -/

/-- The executing port may be replaced, FORCE set and a draw used up: the new port's phase must be in order, STALE is not
set, and an owner can still own. -/
theorem DispatchInv.replace {s : State} {q : Port} {f : Bool} {d : List Engine} (h : DispatchInv s)
    (hp : s.ports[s.cur]? = some s.me) (hforce : s.force = true → f = true)
    (hphase : phaseOk { s with force := f } q) (hstale : q.stale = true → s.me.stale = true)
    (hown : s.init = .busy → s.initOwner.toNat = s.cur → q.canOwn s.inp) :
    DispatchInv { s with force := f, draws := d, ports := s.ports.set s.cur q } where
  portCount := by simpa using h.portCount
  capNeedsPath := h.capNeedsPath
  undecidedIff := h.undecidedIff
  hwCapable := h.hwCapable
  owner hb := by
    obtain ⟨hlt, -⟩ := List.getElem?_eq_some_iff.mp hp
    obtain ⟨p, ho, hcan⟩ := ownerOk_iff.mp (h.owner hb)
    refine ownerOk_iff.mpr ?_
    by_cases hc : s.initOwner.toNat = s.cur
    · exact ⟨q, by simp [hc, hlt], hown hb hc⟩
    · exact ⟨p, by simpa [List.getElem?_set_ne (Ne.symm hc)] using ho, hcan⟩
  ownerIdle := h.ownerIdle
  phases p hmem := by
    rcases List.mem_or_eq_of_mem_set hmem with hold | rfl
    · exact (h.phases p hold).mono rfl hforce id
    · exact hphase
  stale p hmem hst := by
    rcases List.mem_or_eq_of_mem_set hmem with hold | rfl
    · exact h.stale p hold hst
    · exact h.stale s.me (List.mem_of_getElem? hp) (hstale hst)

/-- Replacing a port that does not own INIT. -/
theorem DispatchInv.setMe {s : State} {q : Port} (h : DispatchInv s) (hp : s.ports[s.cur]? = some s.me)
    (hphase : phaseOk s q) (hstale : q.stale = true → s.me.stale = true)
    (hown : s.init = .busy → s.initOwner.toNat ≠ s.cur) :
    DispatchInv (s.setMe q) :=
  h.replace (f := s.force) (d := s.draws) hp id hphase hstale fun hb ho => absurd ho (hown hb)

/-- A command that does not trigger dispatch keeps the invariant where it keeps the phase and STALE. -/
theorem DispatchInv.setMe_of_engine {s : State} {i : Instr} {q : Port} (h : DispatchInv s)
    (hp : s.ports[s.cur]? = some s.me) (hi : s.me.fetch s.inp = .ok i) (ht : triggersDispatch i = false)
    (hph : q.ph = s.me.ph) (hst : q.stale = s.me.stale) : DispatchInv (s.setMe q) := by
  have hready : s.me.ph = .ready := by
    refine (h.phases _ (List.mem_of_getElem? hp)).ready_of_fetch hi ?_ ?_ <;> rintro rfl <;> cases ht
  refine h.setMe hp (phaseOk_of_ready s (hph.trans hready)) hst.symm.trans fun hb ho => ?_
  obtain ⟨-, -, j, hj, htj⟩ := h.canOwn_me hb ho
  cases hi.symm.trans hj
  simp [ht] at htj

/-- Fault entry keeps the invariant at a port that does not own INIT (60_exceptions.md R114). -/
theorem DispatchInv.raise {s : State} (h : DispatchInv s) (hp : s.ports[s.cur]? = some s.me) (e : Trap)
    (hown : s.init = .busy → s.initOwner.toNat ≠ s.cur) : DispatchInv (s.raise e) := by
  have hphase : phaseOk s s.me := h.phases _ (List.mem_of_getElem? hp)
  exact h.setMe hp hphase id hown

/-- The claim step makes the executing port the owner (43_dispatch.md R84). -/
theorem DispatchInv.claim {s : State} {i : Instr} (h : DispatchInv s) (hp : s.ports[s.cur]? = some s.me)
    (hf : s.me.faulted = false) (hi : s.me.fetch s.inp = .ok i) (ht : triggersDispatch i = true)
    (hn : s.init = .none) : DispatchInv s.claim where
  portCount := h.portCount
  capNeedsPath := h.capNeedsPath
  undecidedIff := by simp [h.undecidedIff, hn]
  hwCapable := h.hwCapable
  owner _ := by
    have hph : s.me.ph = .ready ∨ s.me.ph = .forceSet := by
      have hcheck := (h.phases _ (List.mem_of_getElem? hp)).2
      cases hm : s.me.ph <;> simp [hm, hn] at hcheck ⊢
    exact ownerOk_iff.mpr ⟨s.me, by rw [h.toNat_claim_initOwner hp]; exact hp, hf, hph, i, hi, ht⟩
  ownerIdle hb := absurd rfl hb
  phases p hmem := (h.phases p hmem).mono rfl id fun hd => absurd (hd.symm.trans hn) (by decide)
  stale := h.stale

theorem decideSel_ne_undecided (force : Bool) (env : Env) (cap : Bool) : decideSel force env cap ≠ .undecided := by
  unfold decideSel
  split_ifs <;> simp

theorem cap_of_decideSel_hw {force : Bool} {env : Env} {cap : Bool} (h : decideSel force env cap = .hw) : cap = true := by
  unfold decideSel at h
  split_ifs at h with _ hcap
  exact hcap

/-- The decide step: HW needs CAP, and no port is stale before SEL is decided (43_dispatch.md R85). -/
theorem DispatchInv.decideStep {s : State} (h : DispatchInv s) (hb : s.init = .busy) : DispatchInv s.decideStep where
  portCount := h.portCount
  capNeedsPath := h.capNeedsPath
  undecidedIff := by simp [decideSel_ne_undecided]
  hwCapable hsel := by
    have hcap := cap_of_decideSel_hw hsel
    refine ⟨hcap, Bool.of_not_eq_false fun hpath => ?_⟩
    exact absurd (h.capNeedsPath hpath) (by simp [hcap])
  owner hbusy := nomatch hbusy
  ownerIdle _ := rfl
  phases p hmem := (h.phases p hmem).mono rfl (fun hf => by simp [hf]) fun _ => rfl
  stale p hmem hst := by
    have hundecided := h.undecidedIff.mpr (by simp [hb])
    exact absurd ((h.stale p hmem hst).1.symm.trans hundecided) (by decide)

/-- After switching to software a port is as it was, or SEL was HW and it is stale (43_dispatch.md R89). -/
theorem State.mem_stalePorts {s : State} {p : Port} (h : p ∈ s.stalePorts) :
    p ∈ s.ports ∨ s.sel = .hw ∧ ∃ p' ∈ s.ports, p = { p' with stale := true } := by
  obtain ⟨n, hn⟩ := List.mem_iff_getElem?.mp h
  rw [State.getElem?_stalePorts] at hn
  obtain ⟨p', hp', rfl⟩ := Option.map_eq_some_iff.mp hn
  have hmem := List.mem_of_getElem? hp'
  split_ifs with hc
  · exact .inr ⟨hc.1, p', hmem, rfl⟩
  · exact .inl hmem

/-- Forcing software, with the executing port READY after it: what STALE then records held of SEL = HW before
(43_dispatch.md R91, 44_self_check.md R98). -/
theorem DispatchInv.forceSoftware {s : State} {q : Port} (h : DispatchInv s) (hp : s.ports[s.cur]? = some s.me)
    (hd : s.init = .done) (hready : q.ph = .ready) (hstale : q.stale = true → s.me.stale = true) :
    DispatchInv (s.forceSoftware.setMe q) where
  portCount := by simpa using h.portCount
  capNeedsPath := h.capNeedsPath
  undecidedIff := by simp [hd]
  hwCapable hsel := nomatch hsel
  owner hb := absurd (hd.symm.trans hb) (by decide)
  ownerIdle := h.ownerIdle
  phases p hmem := by
    rcases List.mem_or_eq_of_mem_set hmem with hold | rfl
    · rcases State.mem_stalePorts hold with hsame | ⟨-, p', hp', rfl⟩
      · exact (h.phases p hsame).mono rfl (fun _ => rfl) id
      · have hphase : phaseOk s { p' with stale := true } := h.phases p' hp'
        exact hphase.mono rfl (fun _ => rfl) id
    · exact phaseOk_of_ready _ hready
  stale p hmem hst := by
    refine ⟨rfl, ?_⟩
    rcases List.mem_or_eq_of_mem_set hmem with hold | rfl
    · rcases State.mem_stalePorts hold with hsame | ⟨hsel, -⟩
      · exact (h.stale p hsame hst).2
      · exact h.hwCapable hsel
    · exact (h.stale s.me (List.mem_of_getElem? hp) (hstale hst)).2

/-- Every command keeps the dispatch invariant at the port that fetched it. -/
theorem Effect.dispatchInv {s t : State} {i : Instr} (he : Effect s i t) (h : DispatchInv s)
    (hp : s.ports[s.cur]? = some s.me) (hf : s.me.faulted = false) (hi : s.me.fetch s.inp = .ok i) :
    DispatchInv t := by
  have hphase := h.phases _ (List.mem_of_getElem? hp)
  have notBusy : s.init = .done → s.init = .busy → s.initOwner.toNat ≠ s.cur := fun hd hb => nomatch hd.symm.trans hb
  cases he with
  | fault i e _ hn hcsum =>
    refine h.raise hp e fun hb ho => ?_
    obtain ⟨-, -, j, hj, ht⟩ := h.canOwn_me hb ho
    cases hi.symm.trans hj
    have hc : i = .csum := (List.mem_cons.mp ((triggersDispatch_iff i).mp ht)).resolve_right hn
    exact notBusy (hcsum hc) hb ho
  | lda v => exact h.setMe_of_engine hp hi rfl rfl rfl
  | ldl v => exact h.setMe_of_engine hp hi rfl rfl rfl
  | ldc v => exact h.setMe_of_engine hp hi rfl rfl rfl
  | accumulator i v hm => exact h.setMe_of_engine hp hi (not_triggers_of_mem hm) rfl rfl
  | result i v hm => exact h.setMe_of_engine hp hi (not_triggers_of_mem hm) rfl rfl
  | chunk i n f q hm hq =>
    obtain ⟨c, a, len, bs, -, -, -, -, -, rfl⟩ := Port.foldChunk_ok.mp hq
    exact h.setMe_of_engine hp hi (not_triggers_of_mem hm) rfl rfl
  | claim i hm _ hn => exact h.claim hp hf hi ((triggersDispatch_iff i).mpr hm) hn
  | decide i _ _ hb => exact h.decideStep hb
  | csum v hd =>
    have hready := hphase.ready_of_fetch hi (by simp) (by simp)
    exact h.replace (f := s.force) (d := s.drawsLeft) hp id (phaseOk_of_ready _ hready) (fun hst => nomatch hst)
      fun hb ho => absurd ho (notBusy hd hb)
  | name hd =>
    have hready := hphase.ready_of_fetch hi (by simp) (by simp)
    exact h.setMe hp (phaseOk_of_ready _ hready) (fun hst => nomatch hst) (notBusy hd)
  | forceFlag =>
    exact h.replace (f := true) (d := s.draws) hp (fun _ => rfl) ⟨fun _ => ⟨hi, rfl⟩, fun hc => by simp at hc⟩ id
      fun _ _ => ⟨hf, .inr rfl, .forcesw, hi, rfl⟩
  | forceBody hd => exact h.forceSoftware hp hd rfl fun hst => nomatch hst
  | nothingToCheck hd hr => exact h.setMe hp (phaseOk_of_ready _ hr) (fun hst => nomatch hst) (notBusy hd)
  | compare ph hd _ _ hph =>
    refine h.setMe hp ⟨fun hc => ?_, fun _ => ⟨hi, hd⟩⟩ (fun hst => nomatch hst) (notBusy hd)
    rcases hph with rfl | rfl <;> cases hc
  | checkPass hd => exact h.setMe hp (phaseOk_of_ready _ rfl) id (notBusy hd)
  | checkFail hd => exact h.forceSoftware hp hd rfl id

theorem PortStep.dispatchInv {s t : State} (hstep : PortStep s t) (h : DispatchInv s) : DispatchInv t := by
  rcases hstep.result with ⟨i, hi, he⟩ | ⟨⟨e, hi⟩, rfl⟩
  · exact he.dispatchInv h hstep.present hstep.unfaulted hi
  · refine h.raise hstep.present _ fun hb ho => ?_
    obtain ⟨-, -, j, hj, -⟩ := h.canOwn_me hb ho
    cases hi.symm.trans hj

/-- Settles O50, by the invariant of the scheduled port's step. -/
theorem stepKeepsTheDispatchInvariant : Obligations.StepKeepsTheDispatchInvariant := by
  intro s t hs h
  obtain ⟨n, -, hstep⟩ := portStep_of_step h
  exact hstep.dispatchInv (hs.select n)

end Sys2Proof.Machine
end

section
/-! Proofs about host memory (20_memory.md): what MemRead gives, and what no step writes. -/

namespace Sys2Proof.Machine

/-! ### MemRead (R33) -/

/-- The byte at a readable address goes before the bytes read from the next address on. -/
theorem Memory.readBytes_succ_of_get {m : Memory} {a : Nat} {b : Byte} (h : Memory.get m a = some b) (n : Nat) :
    Memory.readBytes m a (n + 1) = (Memory.readBytes m (a + 1) n).map (b :: ·) := by
  rw [Memory.readBytes, h]
  cases Memory.readBytes m (a + 1) n <;> rfl

/-- An unreadable address ends the read. -/
theorem Memory.readBytes_succ_of_get_eq_none {m : Memory} {a : Nat} (h : Memory.get m a = none) (n : Nat) :
    Memory.readBytes m a (n + 1) = .error a := by
  rw [Memory.readBytes, h]

/-- A range in which every byte is readable is read as its bytes in ascending address order. -/
theorem Memory.readBytes_of_forall_get (m : Memory) (bs : List Byte) :
    ∀ a : Nat, (∀ i < bs.length, Memory.get m (a + i) = bs[i]?) → Memory.readBytes m a bs.length = .ok bs := by
  induction bs with
  | nil => intro a _; rfl
  | cons b rest ih =>
    intro a h
    have hfirst : Memory.get m a = some b := h 0 (Nat.succ_pos _)
    have hrest : Memory.readBytes m (a + 1) rest.length = .ok rest := ih (a + 1) fun i hi => by
      simpa [Nat.add_assoc, Nat.add_comm 1 i] using h (i + 1) (Nat.succ_lt_succ hi)
    rw [List.length_cons, Memory.readBytes_succ_of_get hfirst, hrest]
    rfl

/-- A range with an unreadable byte is not read: the lowest one's address is given. -/
theorem Memory.readBytes_of_lowest_unreadable (m : Memory) (k : Nat) :
    ∀ a n : Nat, k < n → (∀ i < k, Memory.get m (a + i) ≠ none) → Memory.get m (a + k) = none →
      Memory.readBytes m a n = .error (a + k) := by
  induction k with
  | zero =>
    intro a n hn _ hk
    obtain ⟨n, rfl⟩ := Nat.exists_eq_add_one.mpr hn
    exact Memory.readBytes_succ_of_get_eq_none hk n
  | succ k ih =>
    intro a n hn hbelow hk
    obtain ⟨n, rfl⟩ := Nat.exists_eq_add_one.mpr (Nat.zero_lt_of_lt hn)
    have hfirst : Memory.get m a ≠ none := hbelow 0 (Nat.succ_pos k)
    obtain ⟨b, hb⟩ := Option.ne_none_iff_exists'.mp hfirst
    have hsucc : ∀ i, a + 1 + i = a + (i + 1) := fun i => by omega
    have hrest : Memory.readBytes m (a + 1) n = .error (a + 1 + k) := by
      refine ih (a + 1) n (Nat.lt_of_succ_lt_succ hn) (fun i hi => ?_) (hsucc k ▸ hk)
      exact hsucc i ▸ hbelow (i + 1) (Nat.succ_lt_succ hi)
    rw [Memory.readBytes_succ_of_get hb, hrest, hsucc]
    rfl

/-- A MemRead of a nonzero count whose range would wrap. -/
theorem Memory.read_of_wraps (m : Memory) {x : Xlen} {a : Addr} {n : Nat} (hn : 0 < n) (h : 2 ^ x.bits < a.toNat + n) :
    Memory.read m x a n = .error (.memFault a) := by
  rw [Memory.read, if_neg hn.ne', if_pos h]

/-- A MemRead whose range does not wrap reads the bytes one after the other. -/
theorem Memory.read_of_fits (m : Memory) {x : Xlen} {a : Addr} {n : Nat} (hn : 0 < n) (h : a.toNat + n ≤ 2 ^ x.bits) :
    Memory.read m x a n = (Memory.readBytes m a.toNat n).mapError fun e => .memFault (BitVec.ofNat 64 e) := by
  rw [Memory.read, if_neg hn.ne', if_neg h.not_gt]
  cases Memory.readBytes m a.toNat n <;> rfl

/-- Settles O9: past the count 0 and the wrap, by what the bytewise read gives. -/
theorem memReadGivesTheBytesOrTheLowestFault : Obligations.MemReadGivesTheBytesOrTheLowestFault := by
  refine ⟨Memory.get_zero, fun _ _ _ => rfl, fun m _ _ _ hn h => m.read_of_wraps hn h, ?_, ?_⟩
  · rintro m x a _ bs hn hfits rfl hbytes
    rw [m.read_of_fits hn hfits, m.readBytes_of_forall_get bs a.toNat hbytes]
    rfl
  · intro m x a n k hfits hk hbelow hnone
    rw [m.read_of_fits (Nat.zero_lt_of_lt hk) hfits, m.readBytes_of_lowest_unreadable k _ n hk hbelow hnone,
      Except.mapError, BitVec.ofNat_add, BitVec.ofNat_toNat, BitVec.setWidth_eq]

/-! ### What no step writes (R34, R43; 10_state.md R26) -/

theorem Effect.mem_eq {s t : State} {i : Instr} (h : Effect s i t) : t.mem = s.mem := by
  cases h <;> rfl

theorem PortStep.mem_eq {s t : State} (h : PortStep s t) : t.mem = s.mem := by
  rcases h.result with ⟨i, -, he⟩ | ⟨-, rfl⟩
  · exact he.mem_eq
  · rfl

theorem PortStep.length_ports {s t : State} (h : PortStep s t) : t.ports.length = s.ports.length := by
  rcases h.result with ⟨i, -, he⟩ | ⟨-, rfl⟩
  · obtain ⟨q, hq | hq⟩ := he.ports_eq_set h.present <;> simp [hq]
  · exact List.length_set

/-- The stream of the executing port stays. -/
theorem PortStep.stream_of_cur {s t : State} {q : Port} (h : PortStep s t) (hq : t.ports[s.cur]? = some q) :
    q.stream = s.me.stream := by
  rcases h.executing_port hq with ⟨e, -, rfl⟩ | ⟨i, -, hf⟩
  · rfl
  · exact hf.stream

theorem PortStep.map_stream_ports {s t : State} (h : PortStep s t) :
    t.ports.map Port.stream = s.ports.map Port.stream := by
  refine List.ext_getElem? fun n => ?_
  rw [List.getElem?_map, List.getElem?_map]
  by_cases hn : n = s.cur
  · subst hn
    obtain ⟨hlt, -⟩ := List.getElem?_eq_some_iff.mp h.present
    have hq := List.getElem?_eq_getElem (h.length_ports ▸ hlt)
    rw [hq, h.present, Option.map_some, Option.map_some, h.stream_of_cur hq]
  · rcases h.other_port hn with ho | ho <;> rw [ho]
    rw [Option.map_map]
    rfl

/-- Settles O10, by what the scheduled port's step leaves. -/
theorem stepsWriteNoMemoryAndNoInput : Obligations.StepsWriteNoMemoryAndNoInput := by
  intro s t h
  obtain ⟨n, -, hstep⟩ := portStep_of_step h
  have hmem : t.mem = s.mem := hstep.mem_eq
  exact ⟨hmem, fun a => by rw [hmem], hstep.inp_eq, hstep.length_ports, hstep.map_stream_ports⟩

end Sys2Proof.Machine
end

section
/-! Proofs about the encoding (30_encoding.md): which words decode, to which command, and which are refused. -/

namespace Sys2Proof.Machine

open Sys2Proof.Laws.Encoding

/-! ### Word 0 (R46) -/

/-- A word whose RSV bits are 0 is its OP, zero-extended. -/
theorem eq_zext_opField {w : Word} (h : rsvField w = 0) : w = (opField w).setWidth 32 := by
  have hsplit : rsvField w ++ opField w = w := BitVec.extractLsb'_append_extractLsb' (w := 24) (len := 8)
  have hzext : (opField w).setWidth 32 = (0 : BitVec 24) ++ opField w := BitVec.setWidth_eq_append (by decide)
  rw [hzext, ← h, hsplit]

/-- Decoding looks up the OP of a word 0 that is no more than its OP. -/
theorem decode_zext (inp : Inputs) (op : Byte) (ext : List Word) :
    decode inp (op.setWidth 32 :: ext) = decodeOp inp op.toNat ext := by
  rw [decode, if_pos (rsvField_zext op), opField_zext]

theorem decode_of_rsvField_ne_zero (inp : Inputs) {w : Word} (ext : List Word) (h : rsvField w ≠ 0) :
    decode inp (w :: ext) = .error .reservedBits :=
  if_neg h

/-- The words of a command decode by its OP and its extension words. -/
theorem decode_encode_append (inp : Inputs) (i : Instr) (rest : List Word) :
    decode inp (encode i ++ rest) = decodeOp inp i.opcode.toNat (i.extensionWords ++ rest) :=
  decode_zext inp i.opcode _

/-! ### Immediates (R48 to R50) and the chunk commands (R53) -/

/-- At XLEN = 32 an immediate fits exactly where its word 2 is 0. -/
theorem fitsXlen_x32_append {lo hi : Word} : fitsXlen .x32 (hi ++ lo) = true ↔ hi = 0 := by
  have hval : (hi ++ lo).toNat = hi.toNat * 2 ^ 32 + lo.toNat := by
    rw [BitVec.toNat_append, ← Nat.shiftLeft_add_eq_or_of_lt lo.isLt, Nat.shiftLeft_eq]
  have hlo := lo.isLt
  rw [fitsXlen, decide_eq_true_iff, hval, ← BitVec.toNat_inj]
  change _ < 2 ^ 32 ↔ hi.toNat = 0
  omega

/-- The two words of an immediate give it where it fits XLEN bits, and are refused elsewhere. -/
theorem immA_cons_cons (inp : Inputs) (lo hi : Word) (rest : List Word) :
    immA inp (lo :: hi :: rest) =
      if fitsXlen inp.xlen (hi ++ lo) then .ok (hi ++ lo) else .error .wideImmediate := by
  unfold immA
  cases inp.xlen with
  | x64 => exact (if_pos (decide_eq_true (hi ++ lo).isLt)).symm
  | x32 =>
    have hzext : lo.setWidth 64 = (0 : Word) ++ lo := BitVec.setWidth_eq_append (by decide)
    by_cases h : hi = 0
    · subst h
      exact (congrArg Except.ok hzext).trans (if_pos (fitsXlen_x32_append.mpr rfl)).symm
    · exact (if_neg h).trans (if_neg (mt fitsXlen_x32_append.mp h)).symm

/-- A format A immediate is read back from its two words. -/
theorem immA_of_fits {inp : Inputs} {v : Addr} (h : fitsXlen inp.xlen v = true) (rest : List Word) :
    immA inp (v.extractLsb' 0 32 :: v.extractLsb' 32 32 :: rest) = .ok v := by
  have hsplit : v.extractLsb' 32 32 ++ v.extractLsb' 0 32 = v := BitVec.extractLsb'_append_extractLsb'
  rw [immA_cons_cons, hsplit, if_pos h]

/-- Only the two words of an immediate that fits XLEN bits give it. -/
theorem fits_of_immA {inp : Inputs} {ext : List Word} {v : Addr} (h : immA inp ext = .ok v) :
    fitsXlen inp.xlen v = true ∧ ∃ rest, ext = v.extractLsb' 0 32 :: v.extractLsb' 32 32 :: rest := by
  rcases ext with _ | ⟨lo, _ | ⟨hi, rest⟩⟩
  · cases h
  · cases h
  · rw [immA_cons_cons] at h
    split_ifs at h with hfits
    cases h
    exact ⟨hfits, rest, by rw [BitVec.extractLsb'_append_eq_right, BitVec.extractLsb'_append_eq_left]⟩

theorem eq_cons_of_immC {ext : List Word} {v : Word} (h : immC ext = .ok v) : ∃ rest, ext = v :: rest := by
  cases ext with
  | nil => cases h
  | cons imm rest => cases h; exact ⟨rest, rfl⟩

/-- A chunk command decodes exactly where the CPU has the CRC instruction in its width. -/
theorem chunkDecode_ok {inp : Inputs} {w : ChunkWidth} {i j : Instr} :
    chunkDecode inp w i = .ok j ↔ inp.hwPath = true ∧ (w = .w8 → inp.xlen = .x64) ∧ j = i := by
  unfold chunkDecode
  cases inp.hwPath with
  | false => simp
  | true => by_cases hw : w = .w8 <;> cases inp.xlen <;> simp [hw, eq_comm]

/-! ### The opcode map (R51) -/

/-- The OP and the extension words of a well-formed command give it back. -/
theorem decodeOp_of_wellFormed {inp : Inputs} {i : Instr} (h : i.wellFormed inp = true) (rest : List Word) :
    decodeOp inp i.opcode.toNat (i.extensionWords ++ rest) = .ok i := by
  cases i with
  | lda v => exact congrArg (Except.map Instr.lda) (immA_of_fits h rest)
  | ldl v => exact congrArg (Except.map Instr.ldl) (immA_of_fits h rest)
  | hwU8 => exact chunkDecode_ok.mpr ⟨h, nofun, rfl⟩
  | hwU16 => exact chunkDecode_ok.mpr ⟨h, nofun, rfl⟩
  | hwU32 => exact chunkDecode_ok.mpr ⟨h, nofun, rfl⟩
  | hwU64 =>
    obtain ⟨hpath, hwide⟩ := Bool.and_eq_true_iff.mp h
    exact chunkDecode_ok.mpr ⟨hpath, fun _ => beq_iff_eq.mp hwide, rfl⟩
  | _ => rfl

/-- An OP and extension words that decode are those of a well-formed command. -/
theorem wellFormed_of_decodeOp {inp : Inputs} {op : Nat} {ext : List Word} {i : Instr}
    (h : decodeOp inp op ext = .ok i) :
    i.wellFormed inp = true ∧ op = i.opcode.toNat ∧ ∃ rest, ext = i.extensionWords ++ rest := by
  unfold decodeOp at h
  split at h
  case h_1 | h_2 =>
    obtain ⟨v, hv, rfl⟩ := exists_of_map_ok h
    obtain ⟨hfits, rest, rfl⟩ := fits_of_immA hv
    exact ⟨hfits, rfl, rest, rfl⟩
  case h_3 =>
    obtain ⟨v, hv, rfl⟩ := exists_of_map_ok h
    obtain ⟨rest, rfl⟩ := eq_cons_of_immC hv
    exact ⟨rfl, rfl, rest, rfl⟩
  case h_10 | h_11 | h_12 =>
    obtain ⟨hpath, -, rfl⟩ := chunkDecode_ok.mp h
    exact ⟨hpath, rfl, ext, rfl⟩
  case h_13 =>
    obtain ⟨hpath, hwide, rfl⟩ := chunkDecode_ok.mp h
    exact ⟨Bool.and_eq_true_iff.mpr ⟨hpath, beq_iff_eq.mpr (hwide rfl)⟩, rfl, ext, rfl⟩
  case h_20 => cases h
  all_goals
    obtain rfl := Except.ok.inj h
    exact ⟨rfl, rfl, ext, rfl⟩

/-- Settles O11, by the OP and the extension words. -/
theorem decodeOfEncodeIsTheCommand : Obligations.DecodeOfEncodeIsTheCommand := by
  intro inp i rest h
  rw [decode_encode_append, decodeOp_of_wellFormed h]

/-- Settles O12: word 0 is its OP zero-extended, and the OP and the extension words are the command's. -/
theorem decodedWordsAreTheEncoding : Obligations.DecodedWordsAreTheEncoding := by
  intro inp ws i h
  cases ws with
  | nil => cases h
  | cons w ext =>
    rw [decode] at h
    split_ifs at h with hrsv
    obtain ⟨hwf, hop, rest, rfl⟩ := wellFormed_of_decodeOp h
    have hword : w = i.word0 := by rw [eq_zext_opField hrsv, BitVec.eq_of_toNat_eq hop, Instr.word0]
    exact ⟨hwf, rest, by rw [hword, encode, List.cons_append]⟩

/-! ### Illegal encodings (R52, R53) -/

/-- Every OP outside the opcode map is reserved. -/
theorem decodeOp_of_reserved (inp : Inputs) {op : Nat} (ext : List Word)
    (h : op ∉ [0x01, 0x02, 0x03, 0x04, 0x10, 0x11, 0x12, 0x13, 0x14, 0x20, 0x21, 0x22, 0x23, 0x24, 0x30, 0x40, 0x41,
      0x42, 0x50]) : decodeOp inp op ext = .error .reservedOpcode := by
  unfold decodeOp
  split
  case h_20 => rfl
  all_goals exact absurd h (by decide)

theorem chunkDecode_of_noHwPath {inp : Inputs} (w : ChunkWidth) (i : Instr) (h : inp.hwPath = false) :
    chunkDecode inp w i = .error .noHwPath :=
  if_pos h

theorem immA_of_wide {inp : Inputs} (lo : Word) {hi : Word} (ext : List Word) (hx : inp.xlen = .x32) (h : hi ≠ 0) :
    immA inp (lo :: hi :: ext) = .error .wideImmediate := by
  rw [immA_cons_cons, hx, if_neg (mt fitsXlen_x32_append.mp h)]

/-- Settles O13, each refusal where its rule puts it: at word 0, in the opcode map, in the extension words or in the
configuration. -/
theorem illegalEncodingsAreRefused : Obligations.IllegalEncodingsAreRefused := by
  refine ⟨fun inp w ext h => decode_of_rsvField_ne_zero inp ext h, fun inp w ext hw hop => ?_, ?_,
    fun inp => decode_zext inp 0x03 [], ?_, ?_, fun inp ext hpath hx => ?_, fun inp ext => decode_zext inp 0x24 ext⟩
  · have hzext : w = (BitVec.ofNat 8 w.toNat).setWidth 32 := by bv_omega
    rw [hzext, decode_zext, BitVec.toNat_ofNat, Nat.mod_eq_of_lt hw, decodeOp_of_reserved inp ext hop]
  · rintro inp w lo (rfl | rfl)
    · exact ⟨decode_zext inp 0x01 [], decode_zext inp 0x01 [lo]⟩
    · exact ⟨decode_zext inp 0x02 [], decode_zext inp 0x02 [lo]⟩
  · rintro inp w lo hi ext (rfl | rfl) hx hhi
    · exact (decode_zext inp 0x01 _).trans (congrArg (Except.map Instr.lda) (immA_of_wide lo ext hx hhi))
    · exact (decode_zext inp 0x02 _).trans (congrArg (Except.map Instr.ldl) (immA_of_wide lo ext hx hhi))
  · intro inp w ext hw hpath
    simp only [List.mem_cons, List.not_mem_nil, or_false] at hw
    rcases hw with rfl | rfl | rfl | rfl
    · exact (decode_zext inp 0x20 ext).trans (chunkDecode_of_noHwPath _ _ hpath)
    · exact (decode_zext inp 0x21 ext).trans (chunkDecode_of_noHwPath _ _ hpath)
    · exact (decode_zext inp 0x22 ext).trans (chunkDecode_of_noHwPath _ _ hpath)
    · exact (decode_zext inp 0x23 ext).trans (chunkDecode_of_noHwPath _ _ hpath)
  · exact (decode_zext inp 0x23 ext).trans (by simp [decodeOp, chunkDecode, hpath, hx])

/-- Settles O14. -/
theorem listedWordsDecodeAsTheSpecSays : Obligations.ListedWordsDecodeAsTheSpecSays := by
  unfold Obligations.ListedWordsDecodeAsTheSpecSays
  decide

/-! ### Fetching (R45) and scheduling (10_state.md R13, 43_dispatch.md R86) -/

/-- The block's step is that of the port it picks. -/
theorem step_of_pick {s : State} {n : Nat} (h : s.pick = some n) : step s = stepAt (s.select n) := by
  rw [step, h]

/-- A port's step runs the command its words spell. -/
theorem stepAt_of_fetch {s : State} {i : Instr} (h : s.me.fetch s.inp = .ok i) : stepAt s = exec i s := by
  rw [stepAt, h]

/-- Settles O15. -/
theorem stepRunsTheDecodedCommand : Obligations.StepRunsTheDecodedCommand := by
  intro s n p i hpick hp hi
  have hme : (s.select n).me = p := State.me_of_getElem? hp
  have hfetch : (s.select n).me.fetch (s.select n).inp = .ok i := by rw [hme]; exact hi
  exact (step_of_pick hpick).trans (stepAt_of_fetch hfetch)

/-- The commands that run the initialization protocol, by phase (43_dispatch.md R84, R91). -/
theorem needsInit_iff {i : Instr} {ph : Phase} :
    needsInit i ph = true ↔ i = .csum ∨ i = .name ∨ i = .selfcheck ∨ (i = .forcesw ∧ ph ≠ .ready) := by
  cases i <;> simp [needsInit, triggersDispatch]

/-- A port holds while another one owns INIT and its command needs initialization (43_dispatch.md R86). -/
theorem State.held_iff {s : State} {n : Nat} {p : Port} :
    s.held n p = true ↔ s.init = .busy ∧ s.initOwner.toNat ≠ n ∧
      ∃ i, p.fetch s.inp = .ok i ∧ needsInit i p.ph = true := by
  unfold State.held
  cases p.fetch s.inp <;> simp [and_assoc]

/-- Settles O17, by when a port holds. -/
theorem enabledPortsAreThoseThatCanStep : Obligations.EnabledPortsAreThoseThatCanStep := by
  intro s n
  simp only [State.enabled_spec, ← Bool.not_eq_true, State.held_iff, needsInit_iff, Port.fetch]

end Sys2Proof.Machine
end

section
/-! HWRUN's expansion against HW.CRC (30_encoding.md R56): the chunk commands of the plan fold what the hardware engine
folds. -/

namespace Sys2Proof.Machine

/-! ### Commands in turn -/

theorem execAll_cons {i : Instr} {s t : State} (h : exec i s = .next t) (l : List Instr) :
    execAll (i :: l) s = execAll l t := by
  rw [execAll, h]

theorem execAll_append {l : List Instr} {s t : State} (h : execAll l s = .next t) (l' : List Instr) :
    execAll (l ++ l') s = execAll l' t := by
  induction l generalizing s with
  | nil => cases h; rfl
  | cons i rest ih =>
    cases he : exec i s with
    | next u =>
      rw [execAll_cons he] at h
      rw [List.cons_append, execAll_cons he, ih h]
    | fault f => rw [execAll, he] at h; cases h
    | refused r => rw [execAll, he] at h; cases h

/-! ### Reading a buffer in parts (20_memory.md R33) -/

/-- An address sum below 2^XLEN does not wrap. -/
theorem toNat_addrAdd_of_lt {x : Xlen} {a : Addr} {k : Nat} (h : a.toNat + k < 2 ^ x.bits) :
    (addrAdd x a k).toNat = a.toNat + k := by
  have hbits : 2 ^ x.bits ≤ 2 ^ 64 := by cases x <;> decide
  rw [addrAdd, BitVec.toNat_ofNat, Nat.mod_eq_of_lt h, Nat.mod_eq_of_lt (lt_of_lt_of_le h hbits)]

/-- The bytes of a range that does not wrap are what MemRead gives, for the count 0 too. -/
theorem Memory.read_of_readBytes {m : Memory} {x : Xlen} {a : Addr} {n : Nat} {bs : List Byte}
    (hfits : a.toNat + n ≤ 2 ^ x.bits) (h : Memory.readBytes m a.toNat n = .ok bs) : Memory.read m x a n = .ok bs := by
  cases n with
  | zero => exact congrArg Except.ok (Except.ok.inj h)
  | succ n => rw [m.read_of_fits n.succ_pos hfits, h]; rfl

/-- A readable buffer is read as its first k bytes and, from the address k further on, the rest. -/
theorem Memory.read_split {m : Memory} {x : Xlen} {a : Addr} {n k : Nat} {bs : List Byte}
    (h : Memory.read m x a n = .ok bs) (hk : k ≤ n) :
    Memory.read m x a k = .ok (bs.take k) ∧ Memory.read m x (addrAdd x a k) (n - k) = .ok (bs.drop k) := by
  rcases Nat.eq_zero_or_pos n with rfl | hn
  · obtain rfl := Nat.le_zero.mp hk
    cases h
    exact ⟨rfl, rfl⟩
  · obtain ⟨hfits, hbytes⟩ := Memory.read_ok hn.ne' h
    obtain ⟨htake, hdrop⟩ := m.readBytes_add k (n - k) a.toNat bs ((Nat.add_sub_cancel' hk).symm ▸ hbytes)
    refine ⟨Memory.read_of_readBytes (by omega) htake, ?_⟩
    rcases hk.eq_or_lt with rfl | hlt
    · rw [Nat.sub_self] at hdrop ⊢
      exact congrArg Except.ok (Except.ok.inj hdrop)
    · have hadd : (addrAdd x a k).toNat = a.toNat + k := toNat_addrAdd_of_lt (by omega)
      exact Memory.read_of_readBytes (by omega) (hadd.symm ▸ hdrop)

/-- The whole-buffer operand of a readable buffer, be it empty. -/
theorem Port.buffer_of_read {p : Port} {inp : Inputs} {m : Memory} {a n : Addr} {bs : List Byte} (ha : p.addr = some a)
    (hn : p.len = some n) (h : Memory.read m inp.xlen a n.toNat = .ok bs) : p.buffer inp m = .ok (a, bs) := by
  by_cases h0 : n = 0
  · subst h0
    obtain rfl : bs = [] := List.length_eq_zero_iff.mp (Memory.length_of_read h)
    rw [Port.buffer_empty hn, ha]
    rfl
  · exact Port.buffer_ok.mpr (.inr ⟨n, a, bs, hn, h0, ha, h, rfl⟩)

/-! ### Folding a buffer chunk by chunk -/

/-- The executing port exists, its C holds `c`, and its ADDR and LEN name a readable buffer of the bytes `bs`. -/
structure AtBuffer (s : State) (c : Word) (a n : Addr) (bs : List Byte) : Prop where
  present : s.ports[s.cur]? = some s.me
  c_eq : s.me.c = some c
  addr_eq : s.me.addr = some a
  len_eq : s.me.len = some n
  bytes : Memory.read s.mem s.inp.xlen a n.toNat = .ok bs

theorem State.setMe_me {s : State} (h : s.ports[s.cur]? = some s.me) : s.setMe s.me = s := by
  obtain ⟨hlt, heq⟩ := List.getElem?_eq_some_iff.mp h
  have hset : s.ports.set s.cur s.me = s.ports := by rw [← heq, List.set_getElem_self]
  rw [State.setMe, hset]

/-- Folding k bytes leaves the port at the rest of its buffer. -/
theorem AtBuffer.foldChunk {s : State} {c : Word} {a n : Addr} {bs : List Byte} (h : AtBuffer s c a n bs) {k : Nat}
    (hk : k ≤ n.toNat) (f : Word → Addr → List Byte → Word) :
    ∃ q, s.me.foldChunk s.inp s.mem k f = .ok q ∧
      AtBuffer (s.setMe q) (f c a (bs.take k)) (addrAdd s.inp.xlen a k) (n - BitVec.ofNat 64 k) (bs.drop k) := by
  obtain ⟨hchunk, hrest⟩ := Memory.read_split h.bytes hk
  have hlen : (n - BitVec.ofNat 64 k).toNat = n.toNat - k := by bv_omega
  refine ⟨_, Port.foldChunk_ok.mpr ⟨c, a, n, _, h.c_eq, h.addr_eq, h.len_eq, hk, hchunk, rfl⟩, ?_⟩
  constructor
  case bytes => exact hlen.symm ▸ hrest
  all_goals rw [State.me_setMe h.present]
  exact State.getElem?_setMe h.present _

/-- CRC.INIT puts all ones into C and leaves the buffer (40_sw_engine.md R61). -/
theorem atBuffer_crcInit {s : State} {a n : Addr} {bs : List Byte} (hp : s.ports[s.cur]? = some s.me)
    (ha : s.me.addr = some a) (hn : s.me.len = some n) (h : Memory.read s.mem s.inp.xlen a n.toNat = .ok bs) :
    ∃ q, exec .crcInit s = .next (s.setMe q) ∧ AtBuffer (s.setMe q) crcInitial a n bs := by
  refine ⟨_, rfl, ?_⟩
  constructor
  case bytes => exact h
  all_goals rw [State.me_setMe hp]
  exacts [State.getElem?_setMe hp _, ha, hn]

/-- CRC.FINAL leaves the complement of C in R (40_sw_engine.md R65). -/
theorem exec_crcFinal_setMe {s : State} {q : Port} {c : Word} (hp : s.ports[s.cur]? = some s.me) (h : q.c = some c) :
    exec .crcFinal (s.setMe q) = .next (s.setMe (q.result (~~~c))) := by
  rw [exec, execCrcFinal, State.me_setMe hp, h, readReg, Except.map, State.runPort_ok, State.setMe_setMe]

/-! ### The chunk commands and HW.CRC (41_hw_engine.md R74, R78) -/

/-- Where the CPU can run a chunk command, it folds one chunk. -/
theorem chunkCommand_of_capable {s : State} {w : ChunkWidth} (hpath : s.inp.hwPath = true)
    (hwide : w = .w8 → s.inp.xlen = .x64) (hcap : s.inp.cap = true) :
    chunkCommand w s = s.runPort (s.me.foldChunk s.inp s.mem w.bytes (hwFoldOf s.inp.hw w)) := by
  have hlegal : (s.inp.hwPath && !(w == .w8 && s.inp.xlen == .x32)) = true := by
    by_cases hw : w = .w8
    · simp [hpath, hwide hw]
    · simp [hpath, hw]
  rw [chunkCommand, hlegal, hcap]
  rfl

/-- Where the hardware engine can run, HW.CRC leaves its checksum of the buffer in R. -/
theorem exec_hwCrc_of_buffer {s : State} {ab : Addr × List Byte} (hcap : s.inp.cap = true)
    (h : s.me.buffer s.inp s.mem = .ok ab) :
    exec .hwCrc s = .next (s.setMe (s.me.result (hwCrc s.inp ab.1 ab.2))) := by
  rw [exec, execHwCrc, hcap, h, Bool.not_true, Bool.and_false]
  rfl

/-- The command that folds one chunk of a width. -/
def chunkInstr : ChunkWidth → Instr
  | .w1 => .hwU8
  | .w2 => .hwU16
  | .w4 => .hwU32
  | .w8 => .hwU64

theorem exec_chunkInstr (w : ChunkWidth) (s : State) : exec (chunkInstr w) s = chunkCommand w s := by
  cases w <;> rfl

/-- The chunk commands of widths that the buffer has room for fold what the hardware engine's chunk loop folds. -/
theorem AtBuffer.execAll_chunkInstr (ws : List ChunkWidth) {s : State} {c : Word} {a n : Addr} {bs : List Byte}
    (h : AtBuffer s c a n bs) (hx : s.inp.xlen = .x64) (hpath : s.inp.hwPath = true) (hcap : s.inp.cap = true)
    (hroom : (ws.map ChunkWidth.bytes).sum ≤ n.toNat) :
    ∃ q, execAll (ws.map chunkInstr) s = .next (s.setMe q) ∧
      q.c = some (hwFoldPlan (hwFoldOf s.inp.hw) s.inp.xlen ws c a bs) := by
  induction ws generalizing s c a n bs with
  | nil => exact ⟨s.me, by rw [State.setMe_me h.present]; rfl, h.c_eq⟩
  | cons w ws ih =>
    rw [List.map_cons, List.sum_cons] at hroom
    obtain ⟨q, hq, hnext⟩ := h.foldChunk (Nat.le_of_add_right_le hroom) (hwFoldOf s.inp.hw w)
    have hexec : exec (chunkInstr w) s = .next (s.setMe q) := by
      rw [exec_chunkInstr, chunkCommand_of_capable hpath (fun _ => hx) hcap, hq, State.runPort_ok]
    obtain ⟨r, hr, hc⟩ := ih hnext hx hpath hcap (by bv_omega)
    rw [State.setMe_setMe] at hr
    exact ⟨r, by rw [List.map_cons, execAll_cons hexec, hr], hc⟩

/-! ### The expansion and the plan (30_encoding.md R56, 41_hw_engine.md R70) -/

/-- The narrowing loop covers what the widest chunks leave. -/
theorem sum_bytes_tailPlan (x : Xlen) :
    ∀ n < (widest x).bytes, ((tailPlan (narrower x) n).map ChunkWidth.bytes).sum = n := by
  cases x <;> decide

/-- The plan's chunks make up the whole buffer. -/
theorem sum_bytes_plan (x : Xlen) (n : Nat) : ((plan x n).map ChunkWidth.bytes).sum = n := by
  have hpos : 0 < (widest x).bytes := by cases x <;> decide
  rw [plan, List.map_append, List.sum_append, List.map_replicate, List.sum_replicate,
    sum_bytes_tailPlan x _ (Nat.mod_lt n hpos), smul_eq_mul, Nat.div_add_mod']

/-- HWRUN is CRC.INIT, the chunk commands of the plan, and CRC.FINAL. -/
theorem pseudoHwRun_eq_plan (n : Nat) :
    pseudoHwRun n = .crcInit :: ((plan .x64 n).map chunkInstr ++ [.crcFinal]) := by
  have htail : ∀ r < 8, (tailPlan (narrower .x64) r).map chunkInstr =
      (if r % 8 ≥ 4 then [.hwU32] else []) ++ (if r % 4 ≥ 2 then [.hwU16] else []) ++
        (if r % 2 = 1 then [.hwU8] else []) := by decide
  have h := htail (n % 8) (Nat.mod_lt _ (by decide))
  rw [Nat.mod_mod, Nat.mod_mod_of_dvd _ (by decide), Nat.mod_mod_of_dvd _ (by decide)] at h
  simp [pseudoHwRun, plan, widest, ChunkWidth.bytes, chunkInstr, h]

/-- With HW_PATH the hardware checksum is the plan folded from all ones and complemented (41_hw_engine.md R71). -/
theorem hwCrc_of_hwPath {inp : Inputs} (h : inp.hwPath = true) (a : Addr) (bs : List Byte) :
    hwCrc inp a bs = ~~~(hwFoldPlan (hwFoldOf inp.hw) inp.xlen (plan inp.xlen bs.length) crcInitial a bs) :=
  if_neg (by rw [h]; decide)

/-- Settles O33: both fold the plan's chunks from all ones, one by commands and one within the engine. -/
theorem hwRunExpansionEqualsHwCrc : Obligations.HwRunExpansionEqualsHwCrc := by
  intro s p a n bs hp hx hpath hcap ha hn hread
  obtain rfl := State.me_of_getElem? hp
  obtain ⟨p, hinit, hstart⟩ := atBuffer_crcInit hp ha hn hread
  obtain ⟨q, hchunks, hc⟩ := hstart.execAll_chunkInstr (plan .x64 n.toNat) hx hpath hcap (sum_bytes_plan _ _).le
  rw [State.setMe_setMe] at hchunks
  rw [State.setMe_inp] at hc
  have hcrc : hwCrc s.inp a bs = ~~~(hwFoldPlan (hwFoldOf s.inp.hw) s.inp.xlen (plan .x64 n.toNat) crcInitial a bs) := by
    rw [hwCrc_of_hwPath hpath, Memory.length_of_read hread, hx]
  have hrun : execAll (pseudoHwRun n.toNat) s = .next (s.setMe (q.result (hwCrc s.inp a bs))) := by
    rw [pseudoHwRun_eq_plan, execAll_cons hinit, execAll_append hchunks,
      execAll_cons (exec_crcFinal_setMe hp hc), hcrc, execAll]
  have hbuffer : s.me.buffer s.inp s.mem = .ok (a, bs) := Port.buffer_of_read ha hn hread
  exact ⟨_, _, _, _, hrun, State.getElem?_setMe hp _, exec_hwCrc_of_buffer hcap hbuffer, State.getElem?_setMe hp _,
    rfl, rfl⟩

end Sys2Proof.Machine
end

section
/-! The software engine as functions (40_sw_engine.md R57 to R60) and its laws (R66). -/

namespace Sys2Proof.Machine

/-! ### The bit step (R57) is linear over xor -/

theorem crcStep_xor (a b : Word) : crcStep (a ^^^ b) = crcStep a ^^^ crcStep b := by
  have hpoly : (if (a ^^^ b).getLsbD 0 then poly else 0) =
      (if a.getLsbD 0 then poly else 0) ^^^ (if b.getLsbD 0 then poly else 0) := by
    rw [BitVec.getLsbD_xor]
    cases a.getLsbD 0 <;> cases b.getLsbD 0 <;> rfl
  rw [crcStep, hpoly, BitVec.ushiftRight_xor_distrib, crcStep, crcStep]
  ac_rfl

theorem iterate_crcStep_xor (k : Nat) (a b : Word) :
    crcStep^[k] (a ^^^ b) = crcStep^[k] a ^^^ crcStep^[k] b :=
  Function.Semiconj₂.iterate crcStep_xor k a b

/-- A change of the initial register passes through the fold as bit steps, eight for each byte. -/
theorem swFold_xor (bs : List Byte) (c d : Word) :
    swFold (c ^^^ d) bs = swFold c bs ^^^ crcStep^[8 * bs.length] d := by
  induction bs generalizing c d with
  | nil => rfl
  | cons b rest ih =>
    have hbyte : swByte (c ^^^ d) b = swByte c b ^^^ crcStep^[8] d := by
      rw [swByte, BitVec.xor_assoc, BitVec.xor_comm d, ← BitVec.xor_assoc, iterate_crcStep_xor, swByte]
    rw [swFold, hbyte, ih, swFold, ← Function.iterate_add_apply, List.length_cons, Nat.mul_succ]

/-- Settles O2: a fold is bit steps with bytes xored in between, and the bit step is linear over xor. -/
theorem softwareFoldIsAffineInTheRegister : Obligations.SoftwareFoldIsAffineInTheRegister :=
  ⟨crcStep_xor, fun c d bs => swFold_xor bs c d⟩

/-! ### The bit step and every fold are bijections -/

theorem crcStep_of_even {c : Word} (h : c.getLsbD 0 = false) : crcStep c = c >>> 1 := by
  rw [crcStep, h]
  exact BitVec.xor_zero

/-- The bit that a step drops comes back as the top bit, which POLY has and a right shift clears. -/
theorem getLsbD_31_crcStep (c : Word) : (crcStep c).getLsbD 31 = c.getLsbD 0 := by
  rw [crcStep, BitVec.getLsbD_xor, BitVec.getLsbD_ushiftRight, BitVec.getLsbD_of_ge c _ (Nat.le_refl 32)]
  cases c.getLsbD 0 <;> rfl

theorem eq_zero_of_crcStep_eq_zero {c : Word} (h : crcStep c = 0) : c = 0 := by
  have heven : c.getLsbD 0 = false := by rw [← getLsbD_31_crcStep, h]; rfl
  have hshift : c >>> 1 = 0 := by rw [← crcStep_of_even heven, h]
  refine BitVec.eq_of_getLsbD_eq fun i _ => ?_
  cases i with
  | zero => exact heven
  | succ i => simpa [Nat.add_comm 1 i] using congrArg (BitVec.getLsbD · i) hshift

theorem crcStep_injective : Function.Injective crcStep := by
  intro a b h
  have hkernel : crcStep (a ^^^ b) = 0 := by rw [crcStep_xor, h]; exact BitVec.xor_self
  exact BitVec.xor_eq_zero_iff.mp (eq_zero_of_crcStep_eq_zero hkernel)

theorem crcStep_bijective : Function.Bijective crcStep :=
  Finite.injective_iff_bijective.mp crcStep_injective

/-- A fold is its value at 0 xored into bit steps of the initial register. -/
theorem swFold_bijective (bs : List Byte) : Function.Bijective fun c => swFold c bs := by
  have haffine : (fun c => swFold c bs) = (swFold 0 bs ^^^ ·) ∘ crcStep^[8 * bs.length] :=
    funext fun c => by rw [Function.comp_apply, ← swFold_xor]; exact congrArg (swFold · bs) BitVec.zero_xor.symm
  have hxor : Function.Involutive (swFold 0 bs ^^^ ·) := fun c => xor_cancel_left _ c
  rw [haffine]
  exact hxor.bijective.comp (crcStep_bijective.iterate _)

/-! ### The bytes of a word -/

/-- The lowest `n` bytes of a word, the lowest one first. -/
def lowBytes : Nat → Word → List Byte
  | 0, _ => []
  | n + 1, w => w.setWidth 8 :: lowBytes n (w >>> 8)

theorem length_lowBytes (n : Nat) (w : Word) : (lowBytes n w).length = n := by
  induction n generalizing w with
  | zero => rfl
  | succ n ih => rw [lowBytes, List.length_cons, ih]

/-- As long as a word's lowest bits are 0, bit steps only shift. -/
theorem iterate_crcStep_of_lowBits {k : Nat} {w : Word} (h : ∀ i < k, w.getLsbD i = false) :
    crcStep^[k] w = w >>> k := by
  induction k generalizing w with
  | zero => exact (BitVec.ushiftRight_zero w).symm
  | succ k ih =>
    rw [Function.iterate_succ_apply, crcStep_of_even (h 0 k.succ_pos), ih fun i hi => ?_,
      ← BitVec.shiftRight_add, Nat.add_comm 1 k]
    rw [BitVec.getLsbD_ushiftRight, Nat.add_comm 1 i]
    exact h (i + 1) (Nat.succ_lt_succ hi)

/-- Eight bit steps on a word: those on its lowest byte, xored with the other bytes moved down. -/
theorem iterate_crcStep_eight (w : Word) :
    crcStep^[8] w = crcStep^[8] ((w.setWidth 8).setWidth 32) ^^^ w >>> 8 := by
  generalize hlo : (w.setWidth 8).setWidth 32 = lo
  have hbits : ∀ i < 8, (lo ^^^ w).getLsbD i = false := fun i hi => by
    simp [← hlo, hi, show i < 32 by omega]
  have hlo_gone : lo >>> 8 = 0 := by bv_omega
  have hrest : (lo ^^^ w) >>> 8 = w >>> 8 := by
    rw [BitVec.ushiftRight_xor_distrib, hlo_gone]; exact BitVec.zero_xor
  rw [← hrest, ← iterate_crcStep_of_lowBits hbits, ← iterate_crcStep_xor, xor_cancel_left]

/-- The byte step takes in a word's lowest byte; its other bytes are then still to come. -/
theorem swByte_xor_ushiftRight (c w : Word) :
    swByte c (w.setWidth 8) ^^^ w >>> 8 = crcStep^[8] (c ^^^ w) := by
  rw [swByte, iterate_crcStep_xor, BitVec.xor_assoc, ← iterate_crcStep_eight, iterate_crcStep_xor]

theorem swFold_lowBytes (n : Nat) (c w : Word) :
    swFold c (lowBytes n w) = crcStep^[8 * n] (c ^^^ w) ^^^ w >>> (8 * n) := by
  induction n generalizing c w with
  | zero => simp [lowBytes, swFold]
  | succ n ih =>
    have hshift : w >>> (8 * (n + 1)) = (w >>> 8) >>> (8 * n) := by
      rw [← BitVec.shiftRight_add, Nat.mul_succ, Nat.add_comm]
    rw [lowBytes, swFold, ih, swByte_xor_ushiftRight, ← Function.iterate_add_apply, hshift, Nat.mul_succ]

/-- Settles O3: the bit step has no kernel, a fold is affine in it, and a word's four bytes fold as 32 bit steps. -/
theorem softwareFoldIsBijective : Obligations.SoftwareFoldIsBijective := by
  refine ⟨crcStep_bijective, swFold_bijective, fun v => ?_⟩
  obtain ⟨d, hd⟩ := (crcStep_bijective.iterate 32).surjective v
  refine ⟨lowBytes 4 (crcInitial ^^^ d), length_lowBytes 4 _, ?_⟩
  have hgone : (crcInitial ^^^ d) >>> (8 * 4) = 0 := BitVec.ushiftRight_eq_zero (Nat.le_refl 32)
  rw [swFold_lowBytes, hgone, xor_cancel_left, hd]
  exact BitVec.xor_zero

/-! ### The engine's own rules (R57 to R60) -/

theorem swFold_append (c : Word) (xs ys : List Byte) : swFold c (xs ++ ys) = swFold (swFold c xs) ys := by
  induction xs generalizing c with
  | nil => rfl
  | cons x rest ih => exact ih (swByte c x)

theorem swCrc_nil : swCrc [] = 0 := rfl

/-- Settles O1: the definitions, how folds compose, and the known vector. -/
theorem softwareEngineFollowsItsRules : Obligations.SoftwareEngineFollowsItsRules :=
  ⟨fun _ => rfl, fun _ _ => rfl, fun _ => rfl, fun _ _ _ => rfl, swFold_append, fun _ => rfl, swCrc_nil,
    by simp [swCrc, swFold, swByte, crcStep, crcInitial, poly]⟩

end Sys2Proof.Machine
end

section
/-! The software engine's commands (40_sw_engine.md R61 to R66): what each does with its operands, and its faults. -/

namespace Sys2Proof.Machine

/-! ### What each command does with its operands -/

theorem exec_swStep_of_c {s : State} {c : Word} (h : s.me.c = some c) :
    exec .swStep s = .next (s.setMe { s.me with c := some (crcStep c), pc := s.me.pc + 1 }) := by
  rw [exec, execSwStep, h]
  rfl

theorem exec_swStep_of_noC {s : State} (h : s.me.c = none) : exec .swStep s = .next (s.raise .uninitReg) := by
  rw [exec, execSwStep, h]
  rfl

theorem exec_crcFinal_of_noC {s : State} (h : s.me.c = none) : exec .crcFinal s = .next (s.raise .uninitReg) := by
  rw [exec, execCrcFinal, h]
  rfl

theorem exec_swByte_of_foldChunk {s : State} {q : Port}
    (h : s.me.foldChunk s.inp s.mem 1 (fun c _ bs => swFold c bs) = .ok q) : exec .swByte s = .next (s.setMe q) := by
  rw [exec, execSwByte, h, State.runPort_ok]

theorem exec_swByte_of_foldChunk_error {s : State} {e : Trap}
    (h : s.me.foldChunk s.inp s.mem 1 (fun c _ bs => swFold c bs) = .error e) : exec .swByte s = .next (s.raise e) := by
  rw [exec, execSwByte, h, State.runPort_error]

theorem exec_swCrc_of_buffer {s : State} {ab : Addr × List Byte} (h : s.me.buffer s.inp s.mem = .ok ab) :
    exec .swCrc s = .next (s.setMe (s.me.result (swCrc ab.2))) := by
  rw [exec, execSwCrc, h]
  rfl

theorem exec_swCrc_of_buffer_error {s : State} {e : Trap} (h : s.me.buffer s.inp s.mem = .error e) :
    exec .swCrc s = .next (s.raise e) := by
  rw [exec, execSwCrc, h]
  rfl

/-! ### The rules of the commands (R61 to R65) -/

/-- Settles O27, one command and one case of C after the other. -/
theorem accumulatorCommandsFollowTheirRules : Obligations.AccumulatorCommandsFollowTheirRules := by
  refine ⟨fun s p hp => ?_, fun s p c hp hc => ?_, fun s p c hp hc => ?_, fun s p hp hc => ?_, fun inp ext =>
    ⟨decode_zext inp 0x10 ext, decode_zext inp 0x11 ext, decode_zext inp 0x14 ext⟩⟩
  all_goals obtain rfl := State.me_of_getElem? hp
  · rfl
  · exact exec_swStep_of_c hc
  · have hnot : c ^^^ 0xFFFFFFFF = ~~~c := BitVec.xor_allOnes
    have hexec := exec_crcFinal_setMe hp hc
    rwa [State.setMe_me hp, ← hnot] at hexec
  · exact ⟨exec_swStep_of_noC hc, exec_crcFinal_of_noC hc⟩

/-- Settles O28, by what the shared chunk operand gives for one byte and by its faults in their priority. -/
theorem swByteFoldsOneBufferByte : Obligations.SwByteFoldsOneBufferByte := by
  refine ⟨fun s p c a n b hp hc ha hn hpos hread => ?_, fun s p hp hnone => ?_, fun s p c a n hp hc ha hn hlow => ?_,
    fun s p c a n e hp hc ha hn hpos hread => ?_, fun inp ext => decode_zext inp 0x12 ext⟩
  all_goals obtain rfl := State.me_of_getElem? hp
  · exact exec_swByte_of_foldChunk (Port.foldChunk_ok.mpr ⟨c, a, n, [b], hc, ha, hn, hpos, hread, rfl⟩)
  · exact exec_swByte_of_foldChunk_error (Port.foldChunk_error.mpr (.inl ⟨hnone, rfl⟩))
  · exact exec_swByte_of_foldChunk_error (Port.foldChunk_error.mpr (.inr ⟨c, a, n, hc, ha, hn, .inl ⟨hlow, rfl⟩⟩))
  · exact exec_swByte_of_foldChunk_error (Port.foldChunk_error.mpr (.inr ⟨c, a, n, hc, ha, hn, .inr ⟨hpos, hread⟩⟩))

/-- Settles O29, by what the whole-buffer operand gives and by its faults. -/
theorem swCrcGivesTheSoftwareChecksum : Obligations.SwCrcGivesTheSoftwareChecksum := by
  refine ⟨fun s p hp hn => ?_, fun s p a n bs hp hn h0 ha hread => ?_, fun s p hp hnone => ?_,
    fun s p a n e hp hn h0 ha hread => ?_, fun inp ext => decode_zext inp 0x13 ext⟩
  all_goals obtain rfl := State.me_of_getElem? hp
  · have hexec := exec_swCrc_of_buffer (Port.buffer_empty (inp := s.inp) (m := s.mem) hn)
    rwa [swCrc_nil] at hexec
  · exact exec_swCrc_of_buffer (Port.buffer_of_read ha hn hread)
  · exact exec_swCrc_of_buffer_error (Port.buffer_error.mpr (.inl ⟨hnone, rfl⟩))
  · exact exec_swCrc_of_buffer_error (Port.buffer_error.mpr (.inr ⟨n, a, hn, h0, ha, hread⟩))

/-! ### Byte by byte against the whole buffer (R66) -/

/-- SW.BYTE once for each byte of a buffer leaves the fold of all its bytes in C. -/
theorem AtBuffer.execAll_swByte {s : State} {c : Word} {a n : Addr} {bs : List Byte} (h : AtBuffer s c a n bs) :
    ∃ q, execAll (List.replicate n.toNat .swByte) s = .next (s.setMe q) ∧ q.c = some (swFold c bs) := by
  have hlen : bs.length = n.toNat := Memory.length_of_read h.bytes
  induction bs generalizing s c a n with
  | nil => exact ⟨s.me, by rw [← hlen, State.setMe_me h.present]; rfl, h.c_eq⟩
  | cons b rest ih =>
    rw [List.length_cons] at hlen
    obtain ⟨q, hq, hnext⟩ := h.foldChunk (k := 1) (by omega) fun c _ bs => swFold c bs
    have hrest : n.toNat = (n - BitVec.ofNat 64 1).toNat + 1 := by bv_omega
    obtain ⟨r, hr, hc⟩ := ih hnext (by omega)
    rw [State.setMe_setMe] at hr
    exact ⟨r, by rw [hrest, List.replicate_succ, execAll_cons (exec_swByte_of_foldChunk hq), hr], hc⟩

/-- Settles O30: the SW.BYTEs fold the bytes one at a time from all ones, and SW.CRC folds them within the engine. -/
theorem bytewiseFoldingEqualsSwCrc : Obligations.BytewiseFoldingEqualsSwCrc := by
  intro s p a n bs hp ha hn hread
  obtain rfl := State.me_of_getElem? hp
  obtain ⟨p, hinit, hstart⟩ := atBuffer_crcInit hp ha hn hread
  obtain ⟨q, hbytes, hc⟩ := hstart.execAll_swByte
  rw [State.setMe_setMe] at hbytes
  have hrun : execAll ([.crcInit] ++ List.replicate n.toNat .swByte ++ [.crcFinal]) s =
      .next (s.setMe (q.result (swCrc bs))) := by
    rw [List.append_assoc, List.singleton_append, execAll_cons hinit, execAll_append hbytes,
      execAll_cons (exec_crcFinal_setMe hp hc), swCrc, execAll]
  have hbuffer : s.me.buffer s.inp s.mem = .ok (a, bs) := Port.buffer_of_read ha hn hread
  exact ⟨_, _, _, _, hrun, State.getElem?_setMe hp _, exec_swCrc_of_buffer hbuffer, State.getElem?_setMe hp _, rfl, rfl⟩

end Sys2Proof.Machine
end

section
/-! The hardware engine as functions (41_hw_engine.md R67 to R72): the chunk plan, the chunk loop, and what conformity of
the chunk folds and of the whole-buffer checksum say of each other (R69). -/

namespace Sys2Proof.Machine

/-! ### The chunk plan (R70) -/

theorem plan_of_widest_le {x : Xlen} {n : Nat} (h : (widest x).bytes ≤ n) :
    plan x n = widest x :: plan x (n - (widest x).bytes) := by
  have hpos : 0 < (widest x).bytes := by cases x <;> decide
  rw [plan, plan, Nat.div_eq_sub_div hpos h, List.replicate_succ, List.cons_append, Nat.mod_eq_sub_mod h]

/-- A buffer as long as one chunk is one chunk. -/
theorem plan_bytes {x : Xlen} {w : ChunkWidth} (h : w.bytes ≤ (widest x).bytes) : plan x w.bytes = [w] := by
  revert h
  cases x <;> cases w <;> decide

/-- Settles O4: the bulk takes widest chunks one at a time, and below W the narrowing loop has finitely many cases. -/
theorem chunkPlanFollowsTheLoop : Obligations.ChunkPlanFollowsTheLoop :=
  ⟨rfl, rfl, rfl, rfl, fun _ _ h => plan_of_widest_le h, by decide, by decide, sum_bytes_plan⟩

/-! ### The chunk loop (R71) -/

theorem hwFoldPlan_cons_append (f : HwFold) (x : Xlen) {w : ChunkWidth} {chunk : List Byte} (h : chunk.length = w.bytes)
    (ws : List ChunkWidth) (c : Word) (a : Addr) (rest : List Byte) :
    hwFoldPlan f x (w :: ws) c a (chunk ++ rest) = hwFoldPlan f x ws (f w c a chunk) (addrAdd x a w.bytes) rest := by
  rw [hwFoldPlan, List.take_left' h, List.drop_left' h]

theorem hwFoldPlan_singleton (f : HwFold) (x : Xlen) {w : ChunkWidth} {bs : List Byte} (h : bs.length = w.bytes)
    (c : Word) (a : Addr) : hwFoldPlan f x [w] c a bs = f w c a bs := by
  rw [hwFoldPlan, hwFoldPlan, List.take_of_length_le h.le]

theorem hwCrc_of_noHwPath {inp : Inputs} (h : inp.hwPath = false) (a : Addr) (bs : List Byte) :
    hwCrc inp a bs = swCrc bs :=
  if_pos h

/-- The plan for no bytes is empty, so the complement of all ones is left. -/
theorem hwCrc_nil (inp : Inputs) (a : Addr) : hwCrc inp a [] = 0 := by
  cases hpath : inp.hwPath with
  | false => rw [hwCrc_of_noHwPath hpath, swCrc_nil]
  | true =>
    have hplan : plan inp.xlen 0 = [] := by cases inp.xlen <;> rfl
    rw [hwCrc_of_hwPath hpath, List.length_nil, hplan, hwFoldPlan]
    decide

/-- Settles O5: the checksum's definition, one turn of the chunk loop, and the empty plan. -/
theorem hardwareChecksumFoldsThePlan : Obligations.HardwareChecksumFoldsThePlan :=
  ⟨fun _ a bs hpath => hwCrc_of_hwPath hpath a bs,
    fun f x _ ws c a _ rest hlen => hwFoldPlan_cons_append f x hlen ws c a rest, fun _ _ _ _ _ => rfl, hwCrc_nil⟩

/-! ### Chunk conformity gives the software checksum (R69 (a), R72) -/

/-- Conforming chunk folds fold a buffer's bytes in order, whatever plan covers the buffer. -/
theorem HwConforms.hwFoldPlan_eq {f : HwFold} (hf : HwConforms f) (x : Xlen) (ws : List ChunkWidth) (c : Word) (a : Addr)
    {bs : List Byte} (h : (ws.map ChunkWidth.bytes).sum = bs.length) : hwFoldPlan f x ws c a bs = swFold c bs := by
  induction ws generalizing c a bs with
  | nil =>
    obtain rfl : bs = [] := List.length_eq_zero_iff.mp h.symm
    rfl
  | cons w ws ih =>
    rw [List.map_cons, List.sum_cons] at h
    have hchunk : (bs.take w.bytes).length = w.bytes := List.length_take_of_le (by omega)
    have hrest : (ws.map ChunkWidth.bytes).sum = (bs.drop w.bytes).length := by rw [List.length_drop]; omega
    rw [hwFoldPlan, hf w c a _ hchunk, ih _ _ hrest, ← swFold_append, List.take_append_drop]

/-- Settles O6: the plan covers the buffer, and without HW_PATH the engine is the software engine. -/
theorem conformingHardwareGivesTheSoftwareChecksum : Obligations.ConformingHardwareGivesTheSoftwareChecksum := by
  refine ⟨fun inp a bs hf => ?_, fun _ a bs hpath => hwCrc_of_noHwPath hpath a bs⟩
  cases hpath : inp.hwPath with
  | false => exact hwCrc_of_noHwPath hpath a bs
  | true => rw [hwCrc_of_hwPath hpath, hf.hwFoldPlan_eq _ _ _ _ (sum_bytes_plan _ _), swCrc]

/-! ### The software checksum on every buffer gives chunk conformity (R69 (b)) -/

/-- Any number of bytes from four on reaches every register value from all ones (40_sw_engine.md R66). -/
theorem exists_swFold_crcInitial_eq {n : Nat} (hn : 4 ≤ n) (c : Word) :
    ∃ bs : List Byte, bs.length = n ∧ swFold crcInitial bs = c := by
  obtain ⟨-, -, hreach⟩ := softwareFoldIsBijective
  obtain ⟨d, hd⟩ := (swFold_bijective (List.replicate (n - 4) 0)).surjective c
  obtain ⟨bs, hlen, hbs⟩ := hreach d
  refine ⟨bs ++ List.replicate (n - 4) 0, ?_, ?_⟩
  · rw [List.length_append, List.length_replicate, hlen, Nat.add_sub_cancel' hn]
  · rw [swFold_append, hbs]
    exact hd

/-- The hardware checksum is right on every buffer that fits below 2^XLEN. -/
def WholeBufferAgrees (inp : Inputs) : Prop :=
  ∀ (a : Addr) (bs : List Byte), a.toNat + bs.length ≤ 2 ^ inp.xlen.bits → hwCrc inp a bs = swCrc bs

/-- Complements agree only where the folded registers do. -/
theorem WholeBufferAgrees.hwFoldPlan_eq {inp : Inputs} (h : WholeBufferAgrees inp) (hpath : inp.hwPath = true) {a : Addr}
    {bs : List Byte} (hfits : a.toNat + bs.length ≤ 2 ^ inp.xlen.bits) :
    hwFoldPlan (hwFoldOf inp.hw) inp.xlen (plan inp.xlen bs.length) crcInitial a bs = swFold crcInitial bs := by
  have hcrc := h a bs hfits
  rw [hwCrc_of_hwPath hpath] at hcrc
  exact BitVec.not_inj.mp hcrc

/-- A buffer of one chunk is folded by that chunk alone. -/
theorem WholeBufferAgrees.hwFoldOf_crcInitial {inp : Inputs} (h : WholeBufferAgrees inp) (hpath : inp.hwPath = true)
    {w : ChunkWidth} {a : Addr} {bs : List Byte} (hw : w.bytes ≤ (widest inp.xlen).bytes) (hlen : bs.length = w.bytes)
    (hfits : a.toNat + w.bytes ≤ 2 ^ inp.xlen.bits) :
    hwFoldOf inp.hw w crcInitial a bs = swFold crcInitial bs := by
  rw [← h.hwFoldPlan_eq hpath (hlen.symm ▸ hfits), hlen, plan_bytes hw, hwFoldPlan_singleton _ _ hlen]

/-- With a widest chunk before it that brings the register to `c`, a chunk is the second and last of its plan. -/
theorem WholeBufferAgrees.hwFoldOf_eq {inp : Inputs} (h : WholeBufferAgrees inp) (hpath : inp.hwPath = true)
    {w : ChunkWidth} {a : Addr} {bs : List Byte} (c : Word) (hw : w.bytes ≤ (widest inp.xlen).bytes)
    (hlen : bs.length = w.bytes) (ha : (widest inp.xlen).bytes ≤ a.toNat)
    (hfits : a.toNat + w.bytes ≤ 2 ^ inp.xlen.bits) :
    hwFoldOf inp.hw w c a bs = swFold c bs := by
  have hfour : 4 ≤ (widest inp.xlen).bytes := by cases inp.xlen <;> decide
  have hpos : 0 < w.bytes := by cases w <;> decide
  obtain ⟨pre, hpre, rfl⟩ := exists_swFold_crcInitial_eq hfour c
  have hlow : (a - BitVec.ofNat 64 (widest inp.xlen).bytes).toNat = a.toNat - (widest inp.xlen).bytes := by bv_omega
  generalize a - BitVec.ofNat 64 (widest inp.xlen).bytes = low at hlow
  have hadd : addrAdd inp.xlen low (widest inp.xlen).bytes = a :=
    BitVec.eq_of_toNat_eq (by rw [toNat_addrAdd_of_lt (by omega)]; omega)
  have hfirst : hwFoldOf inp.hw (widest inp.xlen) crcInitial low pre = swFold crcInitial pre :=
    h.hwFoldOf_crcInitial hpath (Nat.le_refl _) hpre (by omega)
  have hlen' : (pre ++ bs).length = (widest inp.xlen).bytes + w.bytes := by rw [List.length_append, hpre, hlen]
  have hplan : plan inp.xlen (pre ++ bs).length = [widest inp.xlen, w] := by
    rw [hlen', plan_of_widest_le (Nat.le_add_right _ _), Nat.add_sub_cancel_left, plan_bytes hw]
  have hboth := h.hwFoldPlan_eq hpath (a := low) (bs := pre ++ bs) (by omega)
  rwa [hplan, hwFoldPlan_cons_append _ _ hpre, hadd, hfirst, hwFoldPlan_singleton _ _ hlen, swFold_append] at hboth

/-- Settles O7: a chunk from all ones is a buffer of its own, and one from any register value ends a buffer of two. -/
theorem wholeBufferAgreementForcesChunkAgreement : Obligations.WholeBufferAgreementForcesChunkAgreement := by
  intro inp hpath h
  have hagree : WholeBufferAgrees inp := h
  exact ⟨fun _ c _ _ hw hlen ha hfits => hagree.hwFoldOf_eq hpath c hw hlen ha hfits,
    fun _ _ _ hw hlen hfits => hagree.hwFoldOf_crcInitial hpath hw hlen hfits⟩

end Sys2Proof.Machine
end

section
/-! The hardware engine's commands (41_hw_engine.md R73 to R78): the chunk commands and HW.CRC, and their faults. -/

namespace Sys2Proof.Machine

/-! ### The chunk commands (R74 to R77) -/

/-- Where a chunk command is not legal (30_encoding.md R53). -/
theorem chunkCommand_of_illegal {s : State} {w : ChunkWidth}
    (h : s.inp.hwPath = false ∨ (w = .w8 ∧ s.inp.xlen = .x32)) : chunkCommand w s = .next (s.raise .illegalCmd) := by
  have hillegal : (s.inp.hwPath && !(w == .w8 && s.inp.xlen == .x32)) = false := by
    rcases h with hpath | ⟨rfl, hx⟩
    · rw [hpath, Bool.false_and]
    · rw [hx]; exact Bool.and_false _
  rw [chunkCommand, hillegal]
  rfl

theorem chunkCommand_of_noCap {s : State} {w : ChunkWidth} (hpath : s.inp.hwPath = true)
    (hwide : w = .w8 → s.inp.xlen = .x64) (hcap : s.inp.cap = false) :
    chunkCommand w s = .next (s.raise .hwUnsupported) := by
  have hlegal : (s.inp.hwPath && !(w == .w8 && s.inp.xlen == .x32)) = true := by
    rw [hpath, Bool.true_and]
    cases w <;> simp [hwide]
  rw [chunkCommand, hlegal, hcap]
  rfl

/-- The word of a chunk command decodes to it where the chunk is legal. -/
theorem decode_word0_chunkInstr (inp : Inputs) (w : ChunkWidth) (ext : List Word) :
    decode inp ((chunkInstr w).word0 :: ext) = chunkDecode inp w (chunkInstr w) := by
  cases w <;> exact decode_zext inp _ ext

theorem chunkDecode_of_noWideChunk {inp : Inputs} (i : Instr) (hpath : inp.hwPath = true) (hx : inp.xlen = .x32) :
    chunkDecode inp .w8 i = .error .noWideChunk := by
  simp [chunkDecode, hpath, hx]

/-- Settles O31: the template's legality, its capability, then the shared chunk operand's faults and result. -/
theorem chunkCommandsFollowTheTemplate : Obligations.ChunkCommandsFollowTheTemplate := by
  intro i w k word hmem
  obtain ⟨rfl, rfl, rfl⟩ : i = chunkInstr w ∧ k = w.bytes ∧ word = (chunkInstr w).word0 := by
    simp only [List.mem_cons, List.not_mem_nil, or_false, Prod.mk.injEq] at hmem
    rcases hmem with ⟨rfl, rfl, rfl, rfl⟩ | ⟨rfl, rfl, rfl, rfl⟩ | ⟨rfl, rfl, rfl, rfl⟩ | ⟨rfl, rfl, rfl, rfl⟩
    all_goals exact ⟨rfl, rfl, rfl⟩
  simp only [exec_chunkInstr, decode_word0_chunkInstr]
  refine ⟨fun s p hp => ⟨chunkCommand_of_illegal, fun hpath hwide => ⟨chunkCommand_of_noCap hpath hwide, fun hcap => ?_⟩⟩,
    fun inp ext hpath hwide => chunkDecode_ok.mpr ⟨hpath, hwide, rfl⟩,
    fun inp ext hpath => chunkDecode_of_noHwPath w _ hpath, ?_⟩
  · obtain rfl := State.me_of_getElem? hp
    have hfault : ∀ {e}, s.me.foldChunk s.inp s.mem w.bytes (hwFoldOf s.inp.hw w) = .error e →
        chunkCommand w s = .next (s.raise e) := fun h => by
      rw [chunkCommand_of_capable hpath hwide hcap, h, State.runPort_error]
    refine ⟨fun hnone => hfault (Port.foldChunk_error.mpr (.inl ⟨hnone, rfl⟩)), fun c a n hc ha hn =>
      ⟨fun hlow => hfault (Port.foldChunk_error.mpr (.inr ⟨c, a, n, hc, ha, hn, .inl ⟨hlow, rfl⟩⟩)),
        fun e hk hread => hfault (Port.foldChunk_error.mpr (.inr ⟨c, a, n, hc, ha, hn, .inr ⟨hk, hread⟩⟩)),
        fun bs hk hread => ?_⟩⟩
    have hlen : n - BitVec.ofNat 64 w.bytes = BitVec.ofNat 64 (n.toNat - w.bytes) := by bv_omega
    rw [chunkCommand_of_capable hpath hwide hcap,
      Port.foldChunk_ok.mpr ⟨c, a, n, bs, hc, ha, hn, hk, hread, rfl⟩, hlen]
    rfl
  · rintro inp ext hpath rfl hx
    exact chunkDecode_of_noWideChunk _ hpath hx

/-! ### HW.CRC (R78) -/

theorem exec_hwCrc_of_noCap {s : State} (hpath : s.inp.hwPath = true) (hcap : s.inp.cap = false) :
    exec .hwCrc s = .next (s.raise .hwUnsupported) := by
  rw [exec, execHwCrc, hpath, hcap]
  rfl

/-- Where HW.CRC is supported, it leaves the hardware checksum of the whole-buffer operand in R. -/
theorem exec_hwCrc_of_supported {s : State} (h : s.inp.hwPath = false ∨ s.inp.cap = true) :
    exec .hwCrc s =
      s.runPort ((s.me.buffer s.inp s.mem).map fun ab => s.me.result (hwCrc s.inp ab.1 ab.2)) := by
  have hsupported : (!(s.inp.hwPath && !s.inp.cap)) = true := by
    rcases h with hpath | hcap
    · rw [hpath]; rfl
    · rw [hcap, Bool.not_true, Bool.and_false]; rfl
  rw [exec, execHwCrc, hsupported]
  cases s.me.buffer s.inp s.mem <;> rfl

/-- Settles O32: support comes first, then the whole-buffer operand gives its bytes or its fault. -/
theorem hwCrcRunsTheHardwareEngine : Obligations.HwCrcRunsTheHardwareEngine := by
  refine ⟨fun s _ _ => exec_hwCrc_of_noCap, fun s p hp hsupported => ?_, fun inp ext => decode_zext inp 0x24 ext⟩
  obtain rfl := State.me_of_getElem? hp
  have hresult : ∀ {ab}, s.me.buffer s.inp s.mem = .ok ab →
      exec .hwCrc s = .next (s.setMe (s.me.result (hwCrc s.inp ab.1 ab.2))) := fun h => by
    rw [exec_hwCrc_of_supported hsupported, h, Except.map, State.runPort_ok]
  have hfault : ∀ {e}, s.me.buffer s.inp s.mem = .error e → exec .hwCrc s = .next (s.raise e) := fun h => by
    rw [exec_hwCrc_of_supported hsupported, h, Except.map, State.runPort_error]
  refine ⟨fun hn => ?_, fun hnone => hfault (Port.buffer_error.mpr (.inl ⟨hnone, rfl⟩)), fun a n hn h0 ha =>
    ⟨fun bs hread => hresult (Port.buffer_of_read ha hn hread),
      fun e hread => hfault (Port.buffer_error.mpr (.inr ⟨n, a, hn, h0, ha, hread⟩))⟩⟩
  have hexec := hresult (Port.buffer_empty hn)
  rwa [hwCrc_nil] at hexec

end Sys2Proof.Machine
end

section
/-! The capability probe (42_capability.md R80): HWAVAIL, in every dispatch state. -/

namespace Sys2Proof.Machine

/-- HWAVAIL has no fault and no precondition: it always completes with CAP in R. -/
theorem exec_hwavail (s : State) :
    exec .hwavail s = .next (s.setMe (s.me.result (boolCode s.inp.cap))) := by
  rw [exec, execHwavail, State.runPort_ok]

/-- Settles O34: only the executing port is written, with CAP as the result, and 0x30 is the whole command. -/
theorem hwavailPassesCapThrough : Obligations.HwavailPassesCapThrough := by
  refine ⟨fun s p hp => ?_, fun inp ext => decode_zext inp 0x30 ext⟩
  rw [exec_hwavail, State.me_of_getElem? hp]
  rfl

end Sys2Proof.Machine
end

section
/-! The dispatcher's functions and commands (43_dispatch.md R82 to R91): the decision, the initialization protocol, and
the bodies of CSUM, NAME and FORCESW. -/

namespace Sys2Proof.Machine

/-! ### The setting and the decision (R82, R83) -/

/-- Settles O60: each literal by evaluation, and any other value by its two inequalities. -/
theorem onlyExactLiteralsAreOverrides : Obligations.OnlyExactLiteralsAreOverrides :=
  ⟨rfl, rfl, rfl, fun _ hsw hhw => (if_neg hsw).trans (if_neg hhw)⟩

theorem decideSel_of_override {force : Bool} {env : Env} (h : force = true ∨ env = .sw) (cap : Bool) :
    decideSel force env cap = .sw :=
  if_pos h

theorem decideSel_of_noOverride {force : Bool} {env : Env} (hforce : force = false) (henv : env ≠ .sw) (cap : Bool) :
    decideSel force env cap = if cap then .hw else .sw :=
  if_neg (by simp [hforce, henv])

/-- Settles O35: the override comes first, and without one the capability decides. -/
theorem decisionFollowsOverrideThenCapability : Obligations.DecisionFollowsOverrideThenCapability := by
  refine fun force cap env => ⟨fun h => decideSel_of_override h cap, fun hforce henv hcap => ?_,
    fun hforce henv hcap => ?_⟩
  all_goals rw [decideSel_of_noOverride hforce henv, hcap]; rfl

/-! ### The initialization protocol (R84 to R86) -/

theorem State.protocol_of_none {s : State} (h : s.init = .none) (body : State → Host.Outcome State Fault Refusal) :
    s.protocol body = .next s.claim := by
  rw [State.protocol, h]

theorem State.protocol_of_owner {s : State} (h : s.init = .busy) (ho : s.initOwner.toNat = s.cur)
    (body : State → Host.Outcome State Fault Refusal) : s.protocol body = .next s.decideStep := by
  rw [State.protocol, h]
  exact if_pos ho

theorem State.protocol_of_held {s : State} (h : s.init = .busy) (ho : s.initOwner.toNat ≠ s.cur)
    (body : State → Host.Outcome State Fault Refusal) : s.protocol body = .fault .held := by
  rw [State.protocol, h]
  exact if_neg ho

theorem exec_forcesw_of_ready {s : State} (h : s.me.ph = .ready) : exec .forcesw s = .next (forceFlag s) := by
  rw [exec, execForcesw, h]

theorem exec_forcesw_of_forceSet {s : State} (h : s.me.ph = .forceSet) : exec .forcesw s = s.protocol forceBody := by
  rw [exec, execForcesw, h]

/-- The commands that begin with the initialization protocol, FORCESW once its flag step is done. -/
theorem exists_exec_eq_protocol {i : Instr} {s : State}
    (h : i = .csum ∨ i = .name ∨ i = .selfcheck ∨ (i = .forcesw ∧ s.me.ph = .forceSet)) :
    ∃ body, exec i s = s.protocol body := by
  rcases h with rfl | rfl | rfl | ⟨rfl, hph⟩
  · exact ⟨csumBody, rfl⟩
  · exact ⟨nameBody, rfl⟩
  · exact ⟨checkBody, rfl⟩
  · exact ⟨forceBody, exec_forcesw_of_forceSet hph⟩

/-- Settles O36, by the protocol's cases of INIT. -/
theorem dispatchCommandsInitializeFirst : Obligations.DispatchCommandsInitializeFirst := by
  intro i s p hp hi
  obtain rfl := State.me_of_getElem? hp
  obtain ⟨body, hexec⟩ := exists_exec_eq_protocol hi
  rw [hexec]
  exact ⟨fun hn => State.protocol_of_none hn body, fun hb ho => State.protocol_of_owner hb ho body,
    fun hb ho => State.protocol_of_held hb ho body⟩

/-! ### NAME (R90) -/

/-- After initialization NAME has no fault: it always completes with the code of SEL in R. -/
theorem exec_name_of_done {s : State} (h : s.init = .done) :
    exec .name s = .next (s.setMe { s.me with r := some (nameCode s.sel), stale := false, pc := s.me.pc + 1 }) :=
  State.protocol_done h nameBody

/-- Settles O40. -/
theorem nameReportsTheSelector : Obligations.NameReportsTheSelector := by
  refine ⟨fun s p hp hd => ?_, fun inp ext => decode_zext inp 0x41 ext⟩
  obtain rfl := State.me_of_getElem? hp
  exact exec_name_of_done hd

/-! ### FORCESW (R91) -/

theorem exec_forcesw_of_done {s : State} (hph : s.me.ph = .forceSet) (hd : s.init = .done) :
    exec .forcesw s =
      .next (s.forceSoftware.setMe { s.me with stale := false, ph := .ready, pc := s.me.pc + 1 }) := by
  rw [exec_forcesw_of_forceSet hph, State.protocol_done hd, forceBody]

/-- Forcing software replaces the executing port as asked. -/
theorem State.getElem?_forceSoftware_setMe {s : State} (hp : s.ports[s.cur]? = some s.me) (q : Port) :
    (s.forceSoftware.setMe q).ports[s.cur]? = some q := by
  obtain ⟨hlt, -⟩ := List.getElem?_eq_some_iff.mp hp
  exact List.getElem?_set_self (s.stalePorts_length.symm ▸ hlt)

/-- Forcing software sets another port's STALE where SEL was HW (R89). -/
theorem State.getElem?_forceSoftware_setMe_ne {s : State} {m : Nat} {p : Port} (hm : m ≠ s.cur)
    (hp : s.ports[m]? = some p) (q : Port) :
    (s.forceSoftware.setMe q).ports[m]? = some (if s.sel = .hw then { p with stale := true } else p) := by
  have hset : (s.forceSoftware.setMe q).ports[m]? = s.stalePorts[m]? := List.getElem?_set_ne hm.symm
  rw [hset, State.getElem?_stalePorts, hp]
  simp [hm]

/-- Settles O41: the flag step in READY, the body in FORCE_SET. -/
theorem forceswSetsTheFlagThenTheSelector : Obligations.ForceswSetsTheFlagThenTheSelector := by
  refine ⟨fun s p hp hph => ?_, fun s p hp hph hd => ?_, fun inp ext => decode_zext inp 0x42 ext⟩
  all_goals obtain rfl := State.me_of_getElem? hp
  · exact exec_forcesw_of_ready hph
  · exact ⟨_, exec_forcesw_of_done hph hd, rfl, State.getElem?_forceSoftware_setMe hp _,
      fun m q hm hq => State.getElem?_forceSoftware_setMe_ne hm hq _⟩

/-! ### CSUM (R88, R89) -/

theorem engineCrc_eq_ite (inp : Inputs) (a : Addr) (bs : List Byte) (e : Engine) :
    engineCrc inp a bs e = if e = .hw then hwCrc inp a bs else swCrc bs := by
  cases e <;> rfl

/-- No engine looks at the address of an empty buffer. -/
theorem engineCrc_nil (inp : Inputs) (a : Addr) (e : Engine) : engineCrc inp a [] e = 0 := by
  cases e with
  | hw => exact hwCrc_nil inp a
  | sw => exact swCrc_nil

theorem HwConforms.engineCrc_eq {inp : Inputs} (h : HwConforms (hwFoldOf inp.hw)) (a : Addr) (bs : List Byte)
    (e : Engine) : engineCrc inp a bs e = swCrc bs := by
  cases e with
  | hw => exact conformingHardwareGivesTheSoftwareChecksum.1 inp a bs h
  | sw => rfl

theorem State.csumEngine_of_hw {s : State} (h : s.sel = .hw) : s.csumEngine = .hw :=
  if_pos h

theorem State.csumEngine_of_fresh {s : State} (h : s.sel ≠ .hw) (hstale : s.me.stale = false) :
    s.csumEngine = .sw := by
  rw [State.csumEngine, if_neg h, hstale]
  rfl

theorem State.csumEngine_of_stale {s : State} (h : s.sel ≠ .hw) (hstale : s.me.stale = true) :
    s.csumEngine = s.drawn := by
  rw [State.csumEngine, if_neg h, if_pos hstale]

theorem State.drawsLeft_of_stale {s : State} (h : s.sel ≠ .hw) (hstale : s.me.stale = true) :
    s.drawsLeft = s.draws.tail :=
  if_pos ⟨h, hstale⟩

/-- Where the engine is settled no draw is used up. -/
theorem State.drawsLeft_of_settled {s : State} (h : s.sel = .hw ∨ s.me.stale = false) : s.drawsLeft = s.draws := by
  refine if_neg fun ⟨hsel, hstale⟩ => ?_
  rcases h with hhw | hfresh
  · exact hsel hhw
  · exact absurd (hfresh.symm.trans hstale) (by decide)

theorem exec_csum_of_buffer {s : State} {ab : Addr × List Byte} (hd : s.init = .done)
    (h : s.me.buffer s.inp s.mem = .ok ab) :
    exec .csum s = .next (s.csumDone (engineCrc s.inp ab.1 ab.2 s.csumEngine)) :=
  (State.protocol_done hd csumBody).trans (csumBody_ok h)

theorem exec_csum_of_buffer_error {s : State} {e : Trap} (hd : s.init = .done)
    (h : s.me.buffer s.inp s.mem = .error e) : exec .csum s = .next (s.raise e) :=
  (State.protocol_done hd csumBody).trans (csumBody_error h)

/-- Where the engine is settled CSUM changes the executing port only. -/
theorem exec_csum_of_settled {s : State} {ab : Addr × List Byte} (hd : s.init = .done)
    (h : s.me.buffer s.inp s.mem = .ok ab) (hsettled : s.sel = .hw ∨ s.me.stale = false) :
    exec .csum s = .next (s.setMe
      { s.me with
        r := some (engineCrc s.inp ab.1 ab.2 s.csumEngine), stale := false, pc := s.me.pc + 1 }) := by
  rw [exec_csum_of_buffer hd h, State.csumDone, State.drawsLeft_of_settled hsettled]
  rfl

/-- CSUM's operand: the bytes of the buffer beside its address, or beside one that no engine looks at where LEN = 0. -/
theorem Port.exists_buffer_of_operand {p : Port} {inp : Inputs} {m : Memory} {a : Addr} {bs : List Byte}
    (h : p.len = some 0 ∧ bs = [] ∨
      ∃ n, p.len = some n ∧ n ≠ 0 ∧ p.addr = some a ∧ Memory.read m inp.xlen a n.toNat = .ok bs) :
    ∃ b, p.buffer inp m = .ok (b, bs) ∧ ∀ e, engineCrc inp b bs e = engineCrc inp a bs e := by
  rcases h with ⟨hlen, rfl⟩ | ⟨n, hlen, -, haddr, hread⟩
  · exact ⟨_, Port.buffer_empty hlen, fun e => by rw [engineCrc_nil, engineCrc_nil]⟩
  · exact ⟨a, Port.buffer_of_read haddr hlen hread, fun e => rfl⟩

/-- The tape's next choice is drawn and used up, and past the tape the free choice of the step is drawn. -/
theorem State.draw_cases {s : State} {e : Engine} {rest : List Engine}
    (h : s.draws = e :: rest ∨ s.draws = [] ∧ rest = [] ∧ e = Config.staleDraw s.tick) :
    s.drawn = e ∧ s.draws.tail = rest := by
  unfold State.drawn
  rcases h with hdraws | ⟨hdraws, rfl, rfl⟩ <;> rw [hdraws] <;> exact ⟨rfl, rfl⟩

/-- Settles O37: the operand, then the engine that SEL, STALE and the draw select. -/
theorem csumRunsTheSelectedEngine : Obligations.CsumRunsTheSelectedEngine := by
  refine ⟨fun s p bs a e hp hd hoperand hengine => ?_, fun s p bs a e rest hp hd hoperand hsel hstale hdraw => ?_,
    fun s p hp hd => ⟨fun hnone => ?_, fun a n e hn h0 ha hread => ?_⟩, fun inp ext => decode_zext inp 0x40 ext⟩
  all_goals obtain rfl := State.me_of_getElem? hp
  · obtain ⟨b, hbuffer, hcrc⟩ := Port.exists_buffer_of_operand hoperand
    obtain ⟨hsettled, rfl⟩ : (s.sel = .hw ∨ s.me.stale = false) ∧ s.csumEngine = e := by
      rcases hengine with ⟨hsel, rfl⟩ | ⟨hsel, hstale, rfl⟩
      · exact ⟨.inl hsel, State.csumEngine_of_hw hsel⟩
      · exact ⟨.inr hstale, State.csumEngine_of_fresh hsel hstale⟩
    rw [exec_csum_of_settled hd hbuffer hsettled, hcrc, engineCrc_eq_ite]
    rfl
  · obtain ⟨b, hbuffer, hcrc⟩ := Port.exists_buffer_of_operand hoperand
    obtain ⟨rfl, rfl⟩ := State.draw_cases hdraw
    rw [exec_csum_of_buffer hd hbuffer, State.csumEngine_of_stale hsel hstale, hcrc, engineCrc_eq_ite, State.csumDone,
      State.drawsLeft_of_stale hsel hstale]
  · exact exec_csum_of_buffer_error hd (Port.buffer_error.mpr (.inl ⟨hnone, rfl⟩))
  · exact exec_csum_of_buffer_error hd (Port.buffer_error.mpr (.inr ⟨n, a, hn, h0, ha, hread⟩))

/-- Settles O38: whichever engine CSUM runs gives the software checksum. -/
theorem csumValueIsTheSoftwareChecksumOnConformingHardware :
    Obligations.CsumValueIsTheSoftwareChecksumOnConformingHardware := by
  intro s p a n bs hp hd hconf hn ha hread
  obtain rfl := State.me_of_getElem? hp
  have hexec := exec_csum_of_buffer hd (Port.buffer_of_read ha hn hread)
  rw [hconf.engineCrc_eq] at hexec
  exact ⟨_, _, hexec, State.getElem?_setMe hp _, rfl, rfl⟩

/-- Settles O39: neither the operand nor the engine's checksum looks at CAP, ENV or FORCE, so each outcome of the
operand gives the changed state's outcome too. -/
theorem csumReadsOnlyTheCachedDecision : Obligations.CsumReadsOnlyTheCachedDecision := by
  intro s t force cap env hd h
  cases hbuffer : s.me.buffer s.inp s.mem with
  | ok ab =>
    obtain rfl := Host.Outcome.next.inj ((exec_csum_of_buffer hd hbuffer).symm.trans h)
    exact ⟨exec_csum_of_buffer hd hbuffer, hd, rfl, rfl, rfl⟩
  | error e =>
    obtain rfl := Host.Outcome.next.inj ((exec_csum_of_buffer_error hd hbuffer).symm.trans h)
    exact ⟨exec_csum_of_buffer_error hd hbuffer, hd, rfl, rfl, rfl⟩

end Sys2Proof.Machine
end

section
/-! Frames of the commands (43_dispatch.md R81, R84, R88 to R91): what the engine-level commands and the
dispatch-triggering ones leave as it was. -/

namespace Sys2Proof.Machine

/-! ### The engine-level commands (R81) -/

/-- A command that does not trigger dispatch replaces the executing port, which keeps PH, STALE and SCS. -/
theorem Effect.eq_setMe_of_engine {s t : State} {i : Instr} (h : Effect s i t)
    (hi : i ∉ [Instr.csum, .name, .forcesw, .selfcheck]) :
    ∃ q, t = s.setMe q ∧ q.ph = s.me.ph ∧ q.stale = s.me.stale ∧ q.scs = s.me.scs := by
  cases h with
  | chunk i n f q _ hq =>
    obtain ⟨c, a, len, bs, -, -, -, -, -, rfl⟩ := Port.foldChunk_ok.mp hq
    exact ⟨_, rfl, rfl, rfl, rfl⟩
  | claim i hm => exact absurd hm hi
  | decide i hm => exact absurd hm hi
  | csum | name | forceFlag | forceBody | nothingToCheck | compare | checkPass | checkFail =>
    exact absurd (by simp) hi
  | _ => exact ⟨_, rfl, rfl, rfl, rfl⟩

/-- Settles O46. -/
theorem engineCommandsTouchOnlyTheirPort : Obligations.EngineCommandsTouchOnlyTheirPort := by
  intro i s t p hi hp h
  obtain rfl := State.me_of_getElem? hp
  have heffect := exec_effect h
  exact ⟨fun a => by rw [heffect.mem_eq], heffect.eq_setMe_of_engine hi⟩

/-! ### The dispatch-triggering commands -/

/-- No command touches the fields that say whose step it is. -/
theorem Effect.schedule_eq {s t : State} {i : Instr} (h : Effect s i t) :
    t.cur = s.cur ∧ t.sched = s.sched ∧ t.tick = s.tick := by
  cases h <;> exact ⟨rfl, rfl, rfl⟩

/-- Only CSUM uses up a draw, and no more than one (R88). -/
theorem Effect.draws_cases {s t : State} {i : Instr} (h : Effect s i t) :
    t.draws = s.draws ∨ i = .csum ∧ t.draws = s.draws.tail := by
  cases h with
  | csum v =>
    by_cases hdraw : s.sel ≠ .hw ∧ s.me.stale = true
    · exact .inr ⟨rfl, if_pos hdraw⟩
    · exact .inl (if_neg hdraw)
  | _ => exact .inl rfl

/-- A dispatch-triggering command leaves the buffer registers and the accumulator (R88, R90, R91;
44_self_check.md R94). -/
theorem Effect.operands_eq_of_triggers {s t : State} {i : Instr} {q : Port} (h : Effect s i t)
    (hi : i ∈ [Instr.csum, .name, .forcesw, .selfcheck]) (hp : s.ports[s.cur]? = some s.me)
    (hq : t.ports[s.cur]? = some q) : q.addr = s.me.addr ∧ q.len = s.me.len ∧ q.c = s.me.c := by
  rcases h.executing_port hp hq with ⟨e, -, -, rfl⟩ | hf
  · exact ⟨rfl, rfl, rfl⟩
  · simp only [List.mem_cons, List.not_mem_nil, or_false] at hi
    rcases hi with rfl | rfl | rfl | rfl <;>
      exact ⟨by simpa using hf.addr, by simpa using hf.len, by simpa using hf.c⟩

/-- SEL moves in the owner's decide step, and to SW in FORCESW's body and a failing SELFCHECK (R85, R91;
44_self_check.md R98). -/
theorem Effect.sel_cases {s t : State} {i : Instr} (h : Effect s i t) :
    t.sel = s.sel ∨
      (s.init = .busy ∧ s.initOwner.toNat = s.cur ∧ t.sel = decideSel s.force s.inp.env s.inp.cap) ∨
      (s.init = .done ∧ t.sel = .sw ∧
        (i = .forcesw ∧ s.me.ph = .forceSet ∨ i = .selfcheck ∧ s.me.ph = .scMismatch)) := by
  cases h with
  | decide i _ _ hb ho => exact .inr (.inl ⟨hb, ho, rfl⟩)
  | forceBody hd hph => exact .inr (.inr ⟨hd, rfl, .inl ⟨rfl, hph⟩⟩)
  | checkFail hd hph => exact .inr (.inr ⟨hd, rfl, .inr ⟨rfl, hph⟩⟩)
  | _ => exact .inl rfl

/-- What a dispatch-triggering command leaves of the shared dispatch state once INIT = DONE. -/
theorem Effect.shared_of_done {s t : State} {i : Instr} (h : Effect s i t) (hd : s.init = .done) :
    t.init = s.init ∧ t.initOwner = s.initOwner ∧
      (t.sel = s.sel ∨ t.sel = .sw ∧ (i = .forcesw ∨ i = .selfcheck)) ∧
      (t.force = s.force ∨ t.force = true ∧ (i = .forcesw ∨ i = .selfcheck)) := by
  have notBusy : s.init ≠ .busy := by simp [hd]
  have hinit : t.init = s.init ∧ t.initOwner = s.initOwner := by
    rcases h.init_cases with hkeep | ⟨hn, -⟩ | ⟨hb, -⟩
    · exact hkeep
    · exact absurd (hd.symm.trans hn) (by decide)
    · exact absurd hb notBusy
  refine ⟨hinit.1, hinit.2, ?_, ?_⟩
  · rcases h.sel_cases with hkeep | ⟨hb, -⟩ | ⟨-, hsw, hwho⟩
    · exact .inl hkeep
    · exact absurd hb notBusy
    · exact .inr ⟨hsw, hwho.imp And.left And.left⟩
  · rcases h.force_cases with hkeep | ⟨hset, ⟨hi, -⟩ | ⟨hi, -⟩ | ⟨hb, -⟩⟩
    · exact .inl hkeep
    · exact .inr ⟨hset, .inl hi⟩
    · exact .inr ⟨hset, .inr hi⟩
    · exact absurd hb notBusy

/-- Before INIT = DONE a dispatch-triggering command changes no port, but for the phase in FORCESW's flag step
(R84, R91). -/
theorem Effect.ports_before_done {s t : State} {i : Instr} (h : Effect s i t)
    (hi : i ∈ [Instr.csum, .name, .forcesw, .selfcheck]) (hd : s.init ≠ .done) :
    t.ports = s.ports ∨ i = .forcesw ∧ t.ports = s.ports.set s.cur { s.me with ph := .forceSet } := by
  cases h with
  | fault i e _ hn hcsum => exact absurd (hcsum ((List.mem_cons.mp hi).resolve_right hn)) hd
  | claim => exact .inl rfl
  | decide => exact .inl rfl
  | forceFlag => exact .inr ⟨rfl, rfl⟩
  | csum _ hdone | name hdone | forceBody hdone | nothingToCheck hdone | compare _ hdone | checkPass hdone
  | checkFail hdone => exact absurd hdone hd
  | lda | ldl | ldc => exact absurd hi (by simp)
  | accumulator i v hm | result i v hm | chunk i n f q hm =>
    exact absurd ((triggersDispatch_iff i).mpr hi) (by simp [not_triggers_of_mem hm])

/-- Before INIT = DONE the executing port stays, but for the phase in FORCESW's flag step. -/
theorem Effect.me_before_done {s t : State} {i : Instr} {q : Port} (h : Effect s i t)
    (hi : i ∈ [Instr.csum, .name, .forcesw, .selfcheck]) (hd : s.init ≠ .done) (hp : s.ports[s.cur]? = some s.me)
    (hq : t.ports[s.cur]? = some q) : q = s.me ∨ i = .forcesw ∧ q = { s.me with ph := .forceSet } := by
  rcases h.ports_before_done hi hd with hkeep | ⟨hforce, hflag⟩
  · rw [hkeep, hp] at hq
    exact .inl (Option.some.inj hq).symm
  · have hset := State.getElem?_setMe hp { s.me with ph := .forceSet }
    rw [State.setMe_ports, ← hflag, hq] at hset
    exact .inr ⟨hforce, Option.some.inj hset⟩

/-- Settles O47, one part of the state after the other. -/
theorem dispatchCommandsFrame : Obligations.DispatchCommandsFrame := by
  intro i s t p q hi hp h hq
  obtain rfl := State.me_of_getElem? hp
  have heffect := exec_effect h
  have hmem : t.mem = s.mem := heffect.mem_eq
  obtain ⟨hcur, hsched, htick⟩ := heffect.schedule_eq
  obtain ⟨haddr, hlen, hc⟩ := heffect.operands_eq_of_triggers hi hp hq
  exact ⟨fun a => by rw [hmem], hmem, heffect.inp_eq, hcur, hsched, htick, heffect.draws_cases, haddr, hlen, hc,
    heffect.shared_of_done, fun hd => heffect.me_before_done hi hd hp hq⟩

end Sys2Proof.Machine
end

section
/-! The dispatcher along the steps of the block (43_dispatch.md R86, R92): every enabled step has a next state, INIT's
owner gets its step, and software stays once it is forced. -/

namespace Sys2Proof.Machine

/-! ### Every enabled step has a next state (R86) -/

theorem State.exists_settle_next (s : State) (r : Except Trap State) : ∃ t, s.settle r = .next t := by
  cases r with
  | ok t => exact ⟨t, rfl⟩
  | error e => exact ⟨s.raise e, rfl⟩

theorem State.exists_runPort_next (s : State) (r : Except Trap Port) : ∃ t, s.runPort r = .next t :=
  s.exists_settle_next _

/-- Unless another port owns INIT the protocol stops a command only where its body does. -/
theorem State.exists_protocol_next {s : State} {body : State → Host.Outcome State Fault Refusal}
    (hown : s.init = .busy → s.initOwner.toNat = s.cur) (hbody : ∃ t, body s = .next t) :
    ∃ t, s.protocol body = .next t := by
  cases h : s.init with
  | none => exact ⟨_, State.protocol_of_none h body⟩
  | busy => exact ⟨_, State.protocol_of_owner h (hown h) body⟩
  | done => rwa [State.protocol_done h]

/-- SELFCHECK's body stops in FORCESW's phase alone. -/
theorem exists_checkBody_next {s : State} (h : s.me.ph ≠ .forceSet) : ∃ t, checkBody s = .next t := by
  unfold checkBody
  cases hph : s.me.ph with
  | ready =>
    by_cases hsel : s.sel = .hw
    · exact ⟨_, if_pos hsel⟩
    · exact ⟨_, if_neg hsel⟩
  | forceSet => exact absurd hph h
  | scMatch => exact ⟨_, rfl⟩
  | scMismatch => exact ⟨_, rfl⟩

/-- A port that is in order and does not hold runs its command to a next state. -/
theorem exists_exec_next {s : State} {i : Instr} (hphase : phaseOk s s.me) (hi : s.me.fetch s.inp = .ok i)
    (hown : needsInit i s.me.ph = true → s.init = .busy → s.initOwner.toNat = s.cur) : ∃ t, exec i s = .next t := by
  obtain ⟨hset, hcheck⟩ := hphase
  rw [hi] at hset hcheck
  cases i with
  | csum => exact State.exists_protocol_next (hown rfl) (s.exists_settle_next _)
  | name => exact State.exists_protocol_next (hown rfl) ⟨_, rfl⟩
  | forcesw =>
    cases hph : s.me.ph with
    | ready => exact ⟨_, exec_forcesw_of_ready hph⟩
    | forceSet =>
      rw [exec_forcesw_of_forceSet hph]
      exact State.exists_protocol_next (hown (by rw [hph]; rfl)) ⟨_, rfl⟩
    | scMatch => exact nomatch (hcheck (.inl hph)).1
    | scMismatch => exact nomatch (hcheck (.inr hph)).1
  | selfcheck =>
    exact State.exists_protocol_next (hown rfl) (exists_checkBody_next fun hph => nomatch (hset hph).1)
  | ldc | crcInit | hwavail => exact ⟨_, rfl⟩
  | _ => exact s.exists_runPort_next _

/-- An enabled port's step leads to a next state: it runs its command, or takes ILLEGAL_CMD. -/
theorem DispatchInv.exists_stepAt_next {s : State} {n : Nat} (h : DispatchInv s) (hn : s.enabled n = true) :
    ∃ t, stepAt (s.select n) = .next t := by
  obtain ⟨p, hp, -, -, hheld⟩ := State.enabled_spec.mp hn
  obtain rfl : (s.select n).me = p := State.me_of_getElem? hp
  cases hi : (s.select n).me.fetch (s.select n).inp with
  | error e => exact ⟨_, by rw [stepAt, hi]⟩
  | ok i =>
    rw [stepAt_of_fetch hi]
    refine exists_exec_next ((h.select n).phases _ (List.mem_of_getElem? hp)) hi fun hneeds hb => ?_
    by_contra ho
    exact Bool.eq_false_iff.mp hheld (State.held_iff.mpr ⟨hb, ho, i, hi, hneeds⟩)

/-- Settles O20: where a port is enabled one is picked, and its step has a next state. -/
theorem everyEnabledStepHasANextState : Obligations.EveryEnabledStepHasANextState := by
  rintro s hs ⟨n, hn⟩
  cases hpick : s.pick with
  | none =>
    have hmem := State.mem_enabledPorts.mpr hn
    rw [(chooseFrom_none _ _).mp hpick] at hmem
    exact nomatch hmem
  | some m =>
    rw [step_of_pick hpick]
    exact hs.exists_stepAt_next (State.enabled_of_pick hpick)

/-! ### INIT's owner (R86, 60_exceptions.md R114) -/

theorem pc_lt_of_fetch {p : Port} {inp : Inputs} {i : Instr} (h : p.fetch inp = .ok i) :
    p.pc.toNat < p.stream.length := by
  have hend := pc_add_words_le_of_fetch h
  have hpos : 0 < i.format.words := by cases i <;> exact Nat.succ_pos _
  omega

/-- A port with commands left is enabled unless it is faulted or holds. -/
theorem State.enabled_of_not_held {s : State} {n : Nat} {p : Port} (hp : s.ports[n]? = some p) (hf : p.faulted = false)
    (hw : p.pc.toNat < p.stream.length) (h : ¬ (s.init = .busy ∧ s.initOwner.toNat ≠ n)) : s.enabled n = true := by
  refine State.enabled_spec.mpr ⟨p, hp, hf, hw, Bool.of_not_eq_true fun hheld => h ?_⟩
  obtain ⟨hb, ho, -⟩ := State.held_iff.mp hheld
  exact ⟨hb, ho⟩

theorem DispatchInv.enabled_owner {s : State} (h : DispatchInv s) (hb : s.init = .busy) :
    s.enabled s.initOwner.toNat = true := by
  obtain ⟨p, hp, hf, -, i, hi, -⟩ := ownerOk_iff.mp (h.owner hb)
  exact State.enabled_of_not_held hp hf (pc_lt_of_fetch hi) fun ⟨_, ho⟩ => ho rfl

/-- A step of INIT's owner takes no fault: its command is dispatch-triggering, and those fault after INIT = DONE
only. -/
theorem PortStep.unfaulted_owner {s t : State} (hstep : PortStep s t) (h : DispatchInv s) (hb : s.init = .busy)
    (ho : s.initOwner.toNat = s.cur) : ∃ q, t.ports[s.cur]? = some q ∧ q.faulted = false := by
  obtain ⟨-, -, i, hi, ht⟩ := h.canOwn_me hb ho
  rcases hstep.result with ⟨j, hj, he⟩ | ⟨⟨e, hj⟩, -⟩
  · obtain rfl := Except.ok.inj (hi.symm.trans hj)
    have hd : s.init ≠ .done := by simp [hb]
    rcases he.ports_before_done ((triggersDispatch_iff i).mp ht) hd with hkeep | ⟨-, hflag⟩
    · exact ⟨s.me, by rw [hkeep, hstep.present], hstep.unfaulted⟩
    · exact ⟨{ s.me with ph := .forceSet }, by rw [hflag]; exact State.getElem?_setMe hstep.present _,
        hstep.unfaulted⟩
  · exact nomatch hi.symm.trans hj

/-- Settles O21: where a port holds, INIT's owner is enabled. -/
theorem theOwnerStepsAndNothingDeadlocks : Obligations.TheOwnerStepsAndNothingDeadlocks := by
  refine ⟨fun s hs hb => hs.enabled_owner hb, fun s t hs hb hpick h => ?_, fun s n p hs hp hf hw => ?_⟩
  · obtain ⟨n, hn, hstep⟩ := portStep_of_step h
    obtain rfl := Option.some.inj (hpick.symm.trans hn)
    exact hstep.unfaulted_owner (hs.select _) hb rfl
  · by_cases hb : s.init = .busy
    · exact ⟨_, hs.enabled_owner hb⟩
    · exact ⟨n, State.enabled_of_not_held hp hf hw fun ⟨hbusy, _⟩ => hb hbusy⟩

/-! ### SEL along a step (R85, R92) -/

theorem DispatchInv.init_done {s : State} (h : DispatchInv s) (hsel : s.sel ≠ .undecided) : s.init = .done :=
  not_not.mp (mt h.undecidedIff.mpr hsel)

/-- What a step does to SEL, with the command responsible. -/
theorem PortStep.sel_cases {s t : State} (h : PortStep s t) :
    t.sel = s.sel ∨
      (s.init = .busy ∧ s.initOwner.toNat = s.cur ∧ t.sel = decideSel s.force s.inp.env s.inp.cap) ∨
      (s.init = .done ∧ t.sel = .sw ∧ ∃ i, s.me.fetch s.inp = .ok i ∧
        (i = .forcesw ∧ s.me.ph = .forceSet ∨ i = .selfcheck ∧ s.me.ph = .scMismatch)) := by
  rcases h.result with ⟨i, hi, he⟩ | ⟨-, rfl⟩
  · exact he.sel_cases.imp_right (Or.imp_right fun ⟨hd, hsw, hwho⟩ => ⟨hd, hsw, i, hi, hwho⟩)
  · exact .inl rfl

/-- Settles O54: before INIT = DONE only the decide step moves SEL, and after it only the two that force software. -/
theorem selectorIsARatchet : Obligations.SelectorIsARatchet := by
  intro s t hs h
  obtain ⟨n, hpick, hstep⟩ := portStep_of_step h
  rcases hstep.sel_cases with hkeep | ⟨hb, ho, hdecide⟩ | ⟨hd, hsw, i, hi, hwho⟩
  · rw [State.select_sel] at hkeep
    exact ⟨hkeep.trans, fun hu hne => absurd (hkeep.trans hu) hne, fun hhw hne => absurd (hkeep.trans hhw) hne⟩
  · rw [State.select_init] at hb
    rw [State.select_initOwner, State.select_cur] at ho
    have hu : s.sel = .undecided := hs.undecidedIff.mpr (by simp [hb])
    exact ⟨fun hsw => (nomatch hu.symm.trans hsw), fun _ _ => ⟨hb, ho.symm ▸ hpick, hdecide⟩,
      fun hhw => nomatch hu.symm.trans hhw⟩
  · rw [State.select_init] at hd
    exact ⟨fun _ => hsw, fun hu => absurd hd (hs.undecidedIff.mp hu),
      fun _ _ => ⟨hsw, n, _, i, hpick, hstep.present, hi, hwho⟩⟩

/-! ### Software stays forced along a run (R92) -/

/-- What every step keeps holds along a run. -/
theorem Reaches.of_step {P : State → Prop} (hkeep : ∀ s t, P s → step s = .next t → P t) {s t : State}
    (h : Reaches s t) (hs : P s) : P t := by
  induction h with
  | refl => exact hs
  | tail t u _ hstep ih => exact hkeep t u ih hstep

/-- Software is forced: SEL = SW in a state that keeps the dispatch invariant. -/
structure Forced (s : State) : Prop where
  inv : DispatchInv s
  sel_eq : s.sel = .sw

theorem Forced.init_done {s : State} (h : Forced s) : s.init = .done :=
  h.inv.init_done (by simp [h.sel_eq])

theorem Forced.step {s t : State} (h : Forced s) (hstep : step s = .next t) : Forced t :=
  ⟨stepKeepsTheDispatchInvariant s t h.inv hstep, (selectorIsARatchet s t h.inv hstep).1 h.sel_eq⟩

/-- Settles O57: SEL stays SW along the run, and NAME gives the code of SEL. -/
theorem nameStaysSoftwareOnceForced : Obligations.NameStaysSoftwareOnceForced := by
  intro s t hs hsel hreach p hp
  have ht : Forced t := hreach.of_step (fun _ _ => Forced.step) ⟨hs, hsel⟩
  obtain rfl := State.me_of_getElem? hp
  have hcode : nameCode t.sel = 0x00007773 := by rw [ht.sel_eq]; rfl
  have hexec := exec_name_of_done ht.init_done
  rw [hcode] at hexec
  exact ⟨_, _, hexec, State.getElem?_setMe hp _, rfl, ht.sel_eq⟩

/-- While SEL is not HW a command changes no other port and sets no STALE (R89). -/
theorem Effect.ports_of_not_hw {s t : State} {i : Instr} (h : Effect s i t) (hp : s.ports[s.cur]? = some s.me)
    (hsel : s.sel ≠ .hw) : ∃ q, t.ports = s.ports.set s.cur q ∧ (q.stale = true → s.me.stale = true) := by
  have hkeep : s.ports = s.ports.set s.cur s.me := congrArg State.ports (State.setMe_me hp).symm
  have hports : s.stalePorts = s.ports := if_neg hsel
  cases h with
  | chunk i n f q _ hq =>
    obtain ⟨c, a, len, bs, -, -, -, -, -, rfl⟩ := Port.foldChunk_ok.mp hq
    exact ⟨_, rfl, id⟩
  | claim => exact ⟨_, hkeep, id⟩
  | decide => exact ⟨_, hkeep, id⟩
  | csum | name | nothingToCheck | compare => exact ⟨_, rfl, fun hst => nomatch hst⟩
  | forceBody => exact ⟨_, congrArg (List.set · s.cur _) hports, fun hst => nomatch hst⟩
  | checkFail => exact ⟨_, congrArg (List.set · s.cur _) hports, id⟩
  | _ => exact ⟨_, rfl, id⟩

theorem PortStep.ports_of_not_hw {s t : State} (h : PortStep s t) (hsel : s.sel ≠ .hw) :
    ∃ q, t.ports = s.ports.set s.cur q ∧ (q.stale = true → s.me.stale = true) := by
  rcases h.result with ⟨i, -, he⟩ | ⟨-, rfl⟩
  · exact he.ports_of_not_hw h.present hsel
  · exact ⟨_, rfl, id⟩

/-- Port n exists and its STALE is clear. -/
def FreshAt (n : Nat) (s : State) : Prop := ∃ p, s.ports[n]? = some p ∧ p.stale = false

/-- While SEL is not HW a step leaves a clear STALE clear, at the stepping port and at the others. -/
theorem PortStep.freshAt {s t : State} {n : Nat} (h : PortStep s t) (hsel : s.sel ≠ .hw) (hn : FreshAt n s) :
    FreshAt n t := by
  obtain ⟨q, hports, hstale⟩ := h.ports_of_not_hw hsel
  obtain ⟨p, hp, hfresh⟩ := hn
  by_cases hc : n = s.cur
  · subst hc
    obtain rfl := State.me_of_getElem? hp
    refine ⟨q, by rw [hports]; exact State.getElem?_setMe h.present q, Bool.of_not_eq_true fun hst => ?_⟩
    exact absurd (hfresh.symm.trans (hstale hst)) (by decide)
  · exact ⟨p, by rw [hports, List.getElem?_set_ne (Ne.symm hc), hp], hfresh⟩

theorem Forced.freshAt_step {s t : State} {n : Nat} (h : Forced s) (hn : FreshAt n s)
    (hstep : Machine.step s = .next t) : FreshAt n t := by
  obtain ⟨m, -, hport⟩ := portStep_of_step hstep
  exact hport.freshAt (by simp [h.sel_eq]) hn

/-- With software forced and STALE clear, CSUM leaves the software checksum in R and nothing else changes but PC. -/
theorem Forced.exec_csum_of_fresh {s : State} {ab : Addr × List Byte} (h : Forced s) (hfresh : s.me.stale = false)
    (hbuffer : s.me.buffer s.inp s.mem = .ok ab) :
    exec .csum s = .next (s.setMe { s.me with r := some (swCrc ab.2), pc := s.me.pc + 1 }) := by
  have hexec := exec_csum_of_settled h.init_done hbuffer (.inr hfresh)
  rwa [State.csumEngine_of_fresh (by simp [h.sel_eq]) hfresh, engineCrc, ← hfresh] at hexec

/-- Whose step it is does not bear on the dispatch invariant. -/
theorem Forced.withCur {s : State} (h : Forced s) (n : Nat) : Forced { s with cur := n } where
  inv := { h.inv.select n with }
  sel_eq := h.sel_eq

/-- Settles O58: SEL stays SW and the port's STALE clear along the run, so CSUM runs the software engine. -/
theorem forcedPortRunsTheSoftwareEngine : Obligations.ForcedPortRunsTheSoftwareEngine := by
  intro s t n p hs hsel hp hfresh hreach
  obtain ⟨ht, q, hq, hstale⟩ : Forced t ∧ FreshAt n t :=
    hreach.of_step (P := fun s => Forced s ∧ FreshAt n s)
      (fun _ _ ⟨hforced, hn⟩ hstep => ⟨hforced.step hstep, hforced.freshAt_step hn hstep⟩) ⟨⟨hs, hsel⟩, p, hp, hfresh⟩
  refine ⟨q, hq, hstale, fun a len bs ha hlen hread => ?_⟩
  obtain rfl : ({ t with cur := n } : State).me = q := State.me_of_getElem? hq
  exact (ht.withCur n).exec_csum_of_fresh hstale (Port.buffer_of_read ha hlen hread)

end Sys2Proof.Machine
end

section
/-! The self-check (44_self_check.md R94 to R98): what its comparison covers and the pattern it uses, and the two body
steps of SELFCHECK. -/

namespace Sys2Proof.Machine

/-! ### The pattern (R97) -/

/-- A pattern byte is an 8-bit value, so reducing its number modulo 256 first changes nothing. -/
theorem patByte_eq_ofNat_mod (i : Nat) : patByte i = BitVec.ofNat 8 ((3 * i + 1) % 256) :=
  BitVec.eq_of_toNat_eq (by simp [patByte])

theorem length_patSlice (o l : Nat) : (patSlice o l).length = l := by
  rw [patSlice, List.length_map, List.length_range]

theorem patSlice_zero (o : Nat) : patSlice o 0 = [] := rfl

theorem getElem?_patSlice {o l i : Nat} (h : i < l) : (patSlice o l)[i]? = some (patByte (o + i)) := by
  rw [patSlice, List.getElem?_map, List.getElem?_range h, Option.map_some]

/-! ### The comparison (R97) -/

theorem sliceDiffers_iff {inp : Inputs} {o l : Nat} :
    sliceDiffers inp o l = true ↔
      hwCrc inp (addrAdd inp.xlen inp.scPatternBase o) (patSlice o l) ≠ swCrc (patSlice o l) :=
  bne_iff_ne

theorem mismatch_iff {inp : Inputs} :
    mismatch inp = true ↔
      hwCrc inp inp.scTvBase checkVector ≠ swCrc checkVector ∨
        ∃ o ∈ checkOffsets, ∃ l ∈ checkLengths, o + l ≤ inp.scPatternLen ∧ sliceDiffers inp o l = true := by
  simp only [mismatch, Bool.or_eq_true, bne_iff_ne, List.any_eq_true, Bool.and_eq_true, decide_eq_true_eq]

/-- Engines that agree on every buffer agree on each one compared. -/
theorem mismatch_of_agree {inp : Inputs} (h : ∀ a bs, hwCrc inp a bs = swCrc bs) : mismatch inp = false := by
  refine Bool.eq_false_iff.mpr fun hm => ?_
  rcases mismatch_iff.mp hm with hvector | ⟨o, -, l, -, -, hslice⟩
  · exact hvector (h _ _)
  · exact sliceDiffers_iff.mp hslice (h _ _)

/-- The engines agree on a slice of no bytes, wherever it lies. -/
theorem hwCrc_patSlice_zero (inp : Inputs) (a : Addr) (o : Nat) :
    hwCrc inp a (patSlice o 0) = swCrc (patSlice o 0) := by
  rw [patSlice_zero, hwCrc_nil, swCrc_nil]

theorem sliceDiffers_zero (inp : Inputs) (o : Nat) : sliceDiffers inp o 0 = false :=
  Bool.eq_false_iff.mpr fun h => sliceDiffers_iff.mp h (hwCrc_patSlice_zero inp _ o)

/-- The last slice compared ends at 63 + 255. -/
theorem checkOffset_add_checkLength_le : ∀ o ∈ checkOffsets, ∀ l ∈ checkLengths, o + l ≤ 318 := by
  decide

/-- Where the pattern holds every slice, its length does not enter the comparison. -/
theorem mismatch_iff_of_full {inp : Inputs} (h : 318 ≤ inp.scPatternLen) :
    mismatch inp = true ↔
      hwCrc inp inp.scTvBase checkVector ≠ swCrc checkVector ∨
        ∃ o ∈ checkOffsets, ∃ l ∈ checkLengths, sliceDiffers inp o l = true := by
  rw [mismatch_iff]
  refine or_congr_right (exists_congr fun o => and_congr_right fun ho =>
    exists_congr fun l => and_congr_right fun hl => ?_)
  exact and_iff_right ((checkOffset_add_checkLength_le o ho l hl).trans h)

/-- Pattern lengths that hold every slice are alike: neither engine looks at the length. -/
theorem mismatch_scPatternLen_of_full (inp : Inputs) {n : Nat} (h : 318 ≤ n) :
    mismatch { inp with scPatternLen := n } = mismatch { inp with scPatternLen := 318 } :=
  Bool.eq_iff_iff.mpr
    ((mismatch_iff_of_full (inp := { inp with scPatternLen := n }) h).trans
      (mismatch_iff_of_full (inp := { inp with scPatternLen := 318 }) le_rfl).symm)

/-- Settles O8: the compared pairs, the pattern, and what follows for conforming hardware, empty slices and a full
pattern. -/
theorem selfCheckComparisonFacts : Obligations.SelfCheckComparisonFacts := by
  refine ⟨fun inp => ?_, fun o l => ⟨length_patSlice o l, fun i hi => ?_⟩, fun inp hconf => ?_, sliceDiffers_zero,
    hwCrc_patSlice_zero, checkOffset_add_checkLength_le, fun inp n hn => mismatch_scPatternLen_of_full inp hn⟩
  · simp only [mismatch_iff, sliceDiffers_iff]
    rfl
  · rw [getElem?_patSlice hi, patByte_eq_ofNat_mod]
  · exact mismatch_of_agree fun a bs => conformingHardwareGivesTheSoftwareChecksum.1 inp a bs hconf

/-! ### SELFCHECK after initialization (R94) -/

theorem exec_selfcheck_of_done {s : State} (hd : s.init = .done) : exec .selfcheck s = checkBody s :=
  State.protocol_done hd checkBody

theorem checkBody_of_ready {s : State} (hph : s.me.ph = .ready) : checkBody s = checkFirst s := by
  rw [checkBody, hph]

theorem checkBody_of_scMatch {s : State} (hph : s.me.ph = .scMatch) : checkBody s = checkPass s := by
  rw [checkBody, hph]

theorem checkBody_of_scMismatch {s : State} (hph : s.me.ph = .scMismatch) : checkBody s = checkFail s := by
  rw [checkBody, hph]

/-! ### The first body step (R95, R96) -/

theorem checkFirst_of_not_hw {s : State} (hsel : s.sel ≠ .hw) :
    checkFirst s =
      .next (s.setMe { s.me with r := some 0, scs := .nothingToCheck, stale := false, pc := s.me.pc + 1 }) :=
  if_neg hsel

theorem checkFirst_of_hw {s : State} (hsel : s.sel = .hw) :
    checkFirst s =
      .next (s.setMe { s.me with ph := if mismatch s.inp then .scMismatch else .scMatch, stale := false }) :=
  if_pos hsel

/-- Settles O42, by SEL. -/
theorem selfcheckFirstBodyStep : Obligations.SelfcheckFirstBodyStep := by
  refine ⟨fun s p hp hd hph hsel => ?_, fun s p hp hd hph hsel => ?_, fun inp ext => decode_zext inp 0x50 ext⟩
  all_goals
    obtain rfl := State.me_of_getElem? hp
    rw [exec_selfcheck_of_done hd, checkBody_of_ready hph]
  · exact checkFirst_of_not_hw hsel
  · exact checkFirst_of_hw hsel

/-! ### The second body step (R98) -/

theorem exec_selfcheck_of_scMatch {s : State} (hd : s.init = .done) (hph : s.me.ph = .scMatch) :
    exec .selfcheck s =
      .next (s.setMe { s.me with r := some 0, scs := .success, ph := .ready, pc := s.me.pc + 1 }) := by
  rw [exec_selfcheck_of_done hd, checkBody_of_scMatch hph, checkPass, State.runPort_ok]

theorem exec_selfcheck_of_scMismatch {s : State} (hd : s.init = .done) (hph : s.me.ph = .scMismatch) :
    exec .selfcheck s = .next
      (s.forceSoftware.setMe { s.me with r := some 1, scs := .failure, ph := .ready, pc := s.me.pc + 1 }) := by
  rw [exec_selfcheck_of_done hd, checkBody_of_scMismatch hph, checkFail]

/-- Settles O43, by the verdict; SEL decides only whether the other ports become stale. -/
theorem selfcheckSecondBodyStep : Obligations.SelfcheckSecondBodyStep := by
  refine ⟨fun s p hp hd hph => ?_, fun s p hp hd hph => ?_⟩
  all_goals obtain rfl := State.me_of_getElem? hp
  · exact exec_selfcheck_of_scMatch hd hph
  · exact ⟨_, exec_selfcheck_of_scMismatch hd hph, rfl, State.getElem?_forceSoftware_setMe hp _,
      fun m q hm hq => State.getElem?_forceSoftware_setMe_ne hm hq _⟩

end Sys2Proof.Machine
end

section
/-! The operand transfer commands (45_operand_transfer.md R99 to R102): LDA, LDL, LDC and GETC, what they decode from
and what they write. -/

namespace Sys2Proof.Machine

/-! ### The immediate of LDA and LDL (30_encoding.md R48, R50) -/

theorem immA_of_x64 {inp : Inputs} (hx : inp.xlen = .x64) (lo hi : Word) (ext : List Word) :
    immA inp (lo :: hi :: ext) = .ok (hi ++ lo) := by
  rw [immA, hx]

theorem immA_of_x32 {inp : Inputs} (hx : inp.xlen = .x32) (lo : Word) (ext : List Word) :
    immA inp (lo :: 0 :: ext) = .ok (lo.setWidth 64) := by
  rw [immA, hx]
  exact if_pos rfl

theorem decode_lda_of_immA {inp : Inputs} {ext : List Word} {v : Addr} (h : immA inp ext = .ok v) :
    decode inp (0x01 :: ext) = .ok (.lda v) :=
  (decode_zext inp 0x01 ext).trans (congrArg (Except.map Instr.lda) h)

theorem decode_ldl_of_immA {inp : Inputs} {ext : List Word} {v : Addr} (h : immA inp ext = .ok v) :
    decode inp (0x02 :: ext) = .ok (.ldl v) :=
  (decode_zext inp 0x02 ext).trans (congrArg (Except.map Instr.ldl) h)

theorem immOperand_of_fits {inp : Inputs} {v : Addr} (h : v.toNat < 2 ^ inp.xlen.bits) : immOperand inp v = .ok v := by
  rw [immOperand, require_ok (u := ()).mpr (decide_eq_true h)]
  rfl

theorem immOperand_of_wide {inp : Inputs} {v : Addr} (h : 2 ^ inp.xlen.bits ≤ v.toNat) :
    immOperand inp v = .error .illegalCmd := by
  rw [immOperand, require_error.mpr ⟨decide_eq_false h.not_gt, rfl⟩]
  rfl

/-! ### LDA and LDL (R99, R100) -/

theorem exec_lda_of_fits {s : State} {v : Addr} (h : v.toNat < 2 ^ s.inp.xlen.bits) :
    exec (.lda v) s = .next (s.setMe { s.me with addr := some v, pc := s.me.pc + 3 }) := by
  rw [exec, execLda, immOperand_of_fits h, Except.map, State.runPort_ok]

theorem exec_ldl_of_fits {s : State} {v : Addr} (h : v.toNat < 2 ^ s.inp.xlen.bits) :
    exec (.ldl v) s = .next (s.setMe { s.me with len := some v, pc := s.me.pc + 3 }) := by
  rw [exec, execLdl, immOperand_of_fits h, Except.map, State.runPort_ok]

theorem exec_lda_of_wide {s : State} {v : Addr} (h : 2 ^ s.inp.xlen.bits ≤ v.toNat) :
    exec (.lda v) s = .next (s.raise .illegalCmd) := by
  rw [exec, execLda, immOperand_of_wide h, Except.map, State.runPort_error]

theorem exec_ldl_of_wide {s : State} {v : Addr} (h : 2 ^ s.inp.xlen.bits ≤ v.toNat) :
    exec (.ldl v) s = .next (s.raise .illegalCmd) := by
  rw [exec, execLdl, immOperand_of_wide h, Except.map, State.runPort_error]

/-- Settles O25: the immediate by XLEN, the command by whether it fits; the refusals are those of O13. -/
theorem ldaAndLdlSetTheBuffer : Obligations.LdaAndLdlSetTheBuffer := by
  obtain ⟨-, -, htruncated, -, hwide, -⟩ := illegalEncodingsAreRefused
  refine ⟨fun s p imm hp hfits => ?_, fun inp lo hi ext hx => ?_, fun inp lo ext hx => ?_, htruncated, hwide,
    fun s imm h => ⟨exec_lda_of_wide h, exec_ldl_of_wide h⟩⟩
  · obtain rfl := State.me_of_getElem? hp
    exact ⟨exec_lda_of_fits hfits, exec_ldl_of_fits hfits⟩
  · have himm := immA_of_x64 hx lo hi ext
    exact ⟨decode_lda_of_immA himm, decode_ldl_of_immA himm⟩
  · have himm := immA_of_x32 hx lo ext
    exact ⟨decode_lda_of_immA himm, decode_ldl_of_immA himm⟩

/-! ### LDC and GETC (R101, R102) -/

/-- LDC has no fault and no precondition: it always completes with the immediate in C. -/
theorem exec_ldc (imm : Word) (s : State) :
    exec (.ldc imm) s = .next (s.setMe { s.me with c := some imm, pc := s.me.pc + 2 }) := by
  rw [exec, execLdc, State.runPort_ok]

theorem exec_getc_of_c {s : State} {c : Word} (h : s.me.c = some c) :
    exec .getc s = .next (s.setMe (s.me.result c)) := by
  rw [exec, execGetc, readReg_ok.mpr h, Except.map, State.runPort_ok]

theorem exec_getc_of_noC {s : State} (h : s.me.c = none) : exec .getc s = .next (s.raise .uninitReg) := by
  rw [exec, execGetc, readReg_error.mpr ⟨h, rfl⟩, Except.map, State.runPort_error]

/-- Settles O26: what LDC writes, then GETC in both cases of C; a truncated LDC is one of the illegal encodings. -/
theorem ldcAndGetcMoveTheAccumulator : Obligations.LdcAndGetcMoveTheAccumulator := by
  obtain ⟨-, -, -, htruncated, -⟩ := illegalEncodingsAreRefused
  refine ⟨fun s p imm hp => ?_, fun inp imm ext => decode_zext inp 0x03 (imm :: ext), htruncated,
    fun s p c hp hc => ?_, fun s p hp hc => ?_, fun inp ext => decode_zext inp 0x04 ext⟩
  all_goals obtain rfl := State.me_of_getElem? hp
  · exact exec_ldc imm s
  · exact exec_getc_of_c hc
  · exact exec_getc_of_noC hc

end Sys2Proof.Machine
end

section
/-! Fault entry (60_exceptions.md R105, R111) and what a command leaves of the fault records and of the other ports
(R111, R114, R119; 43_dispatch.md R89). -/

namespace Sys2Proof.Machine

/-! ### Whole commands and other ports -/

/-- No command adds or removes a port. -/
theorem Effect.length_ports {s t : State} {i : Instr} (h : Effect s i t) : t.ports.length = s.ports.length := by
  cases h with
  | claim | decide => rfl
  | forceBody | checkFail => exact List.length_set.trans s.stalePorts_length
  | _ => exact List.length_set

/-- Settles O24: the executing port is still there after the command, with the fault taken or the command's frame. -/
theorem commandsFaultWholeOrNotAtAll : Obligations.CommandsFaultWholeOrNotAtAll := by
  intro i s t p hp h
  obtain rfl := State.me_of_getElem? hp
  have heffect := exec_effect h
  obtain ⟨hlt, -⟩ := List.getElem?_eq_some_iff.mp hp
  obtain ⟨q, hq⟩ : ∃ q, t.ports[s.cur]? = some q := ⟨_, List.getElem?_eq_getElem (heffect.length_ports ▸ hlt)⟩
  rcases heffect.executing_port hp hq with ⟨e, -, ht, -⟩ | hf
  · exact .inl ⟨e, ht⟩
  · exact .inr ⟨q, hq, hf.faulted, hf.err, hf.faultPc, hf.faultCmd, hf.faultAddr⟩

/-- Forcing software leaves another port as it is, or sets its STALE where SEL was HW (R89). -/
theorem State.other_port_forceSoftware {s : State} {m : Nat} {q : Port} (hm : m ≠ s.cur) (hq : s.ports[m]? = some q)
    (r : Port) : (s.forceSoftware.setMe r).ports[m]? = some q ∨
      (s.forceSoftware.setMe r).ports[m]? = some { q with stale := true } ∧ s.sel = .hw := by
  rw [State.getElem?_forceSoftware_setMe_ne hm hq]
  by_cases hsel : s.sel = .hw
  · exact .inr ⟨by rw [if_pos hsel], hsel⟩
  · exact .inl (by rw [if_neg hsel])

/-- A command leaves another port as it is, or is FORCESW or SELFCHECK and makes it stale by switching SEL from HW to
SW. -/
theorem Effect.other_port {s t : State} {i : Instr} {m : Nat} {q : Port} (h : Effect s i t) (hm : m ≠ s.cur)
    (hq : s.ports[m]? = some q) : t.ports[m]? = some q ∨
      t.ports[m]? = some { q with stale := true } ∧ s.sel = .hw ∧ t.sel = .sw ∧ (i = .forcesw ∨ i = .selfcheck) := by
  cases h with
  | claim | decide => exact .inl hq
  | forceBody =>
    exact (State.other_port_forceSoftware hm hq _).imp_right fun ⟨hstale, hsel⟩ => ⟨hstale, hsel, rfl, .inl rfl⟩
  | checkFail =>
    exact (State.other_port_forceSoftware hm hq _).imp_right fun ⟨hstale, hsel⟩ => ⟨hstale, hsel, rfl, .inr rfl⟩
  | _ => exact .inl ((List.getElem?_set_ne hm.symm).trans hq)

/-- Settles O45. -/
theorem otherPortsOnlyBecomeStale : Obligations.OtherPortsOnlyBecomeStale := by
  intro i s t m q h hm hq
  have heffect := exec_effect h
  exact ⟨heffect.length_ports, heffect.other_port hm hq⟩

/-! ### Fault entry (R111) -/

/-- Fault entry at a port with a word to fetch records that word. -/
theorem Port.raise_of_word {p : Port} {w : Word} (hw : p.stream[p.pc.toNat]? = some w) (e : Trap) :
    p.raise e = { p.raise e with faultCmd := w } := by
  have hcmd : (p.raise e).faultCmd = w := by rw [Port.raise_faultCmd, List.getD, hw, Option.getD_some]
  rw [← hcmd]

/-- Fault entry at the executing port, with the word it records. -/
theorem State.raise_of_word {s : State} {p : Port} {w : Word} (hp : s.ports[s.cur]? = some p)
    (hw : p.stream[p.pc.toNat]? = some w) (e : Trap) : s.raise e = s.setMe { p.raise e with faultCmd := w } := by
  rw [State.raise, State.me_of_getElem? hp, ← Port.raise_of_word hw]

/-- A port's step takes ILLEGAL_CMD where its words spell no command (R105). -/
theorem stepAt_of_undecodable {s : State} {e : DecodeError} (h : s.me.fetch s.inp = .error e) :
    stepAt s = .next (s.raise .illegalCmd) := by
  rw [stepAt, h]

/-- Settles O16: the picked port's step is fault entry with ILLEGAL_CMD. -/
theorem undecodableWordsRaiseIllegalCmd : Obligations.UndecodableWordsRaiseIllegalCmd := by
  intro s n p w e hpick hp hw hdecode
  have hme : (s.select n).me = p := State.me_of_getElem? hp
  have hfetch : (s.select n).me.fetch (s.select n).inp = .error e := by rw [hme]; exact hdecode
  rw [step_of_pick hpick, stepAt_of_undecodable hfetch, State.raise_of_word (s := s.select n) hp hw]
  rfl

theorem State.enabled_of_faulted {s : State} {n : Nat} {p : Port} (hp : s.ports[n]? = some p) (hf : p.faulted = true) :
    s.enabled n = false := by
  refine Bool.of_not_eq_true fun hn => ?_
  obtain ⟨q, hq, hunfaulted, -⟩ := State.enabled_spec.mp hn
  obtain rfl := Option.some.inj (hp.symm.trans hq)
  exact absurd (hf.symm.trans hunfaulted) (by decide)

/-- No run has ended while a port is faulted (70_reset_and_hazards.md R125). -/
theorem State.endState_of_faulted {s : State} {p : Port} (hp : p ∈ s.ports) (hf : p.faulted = true) :
    s.endState = false :=
  List.all_eq_false.mpr ⟨p, hp, by simp [Port.ended, hf]⟩

/-- Settles O23: the record fault entry writes, by the fault's code, and then that the executing port is faulted. -/
theorem faultEntryWritesTheRecordOnly : Obligations.FaultEntryWritesTheRecordOnly := by
  intro s p w hp hw
  refine ⟨fun e code hcode => ?_, fun a => State.raise_of_word hp hw _, fun e => ?_⟩
  · rw [State.raise_of_word hp hw]
    simp only [List.mem_cons, Prod.mk.injEq, List.not_mem_nil, or_false] at hcode
    rcases hcode with ⟨rfl, rfl⟩ | ⟨rfl, rfl⟩ | ⟨rfl, rfl⟩ | ⟨rfl, rfl⟩ <;> rfl
  · have hraised : (s.raise e).ports[s.cur]? = some (s.me.raise e) := State.getElem?_setMe hp _
    exact ⟨State.enabled_of_faulted hraised rfl, State.endState_of_faulted (List.mem_of_getElem? hraised) rfl⟩

end Sys2Proof.Machine
end

section
/-! Proofs about the end of a run (70_reset_and_hazards.md R125, R126): where no port is enabled the block stops, and a run
gets there because every step takes one of finitely many steps left. -/

namespace Sys2Proof.Machine

/-! ### Where no port is enabled (R125) -/

theorem State.endState_iff {s : State} :
    s.endState = true ↔ ∀ p ∈ s.ports, p.pc.toNat = p.stream.length ∧ p.ph = .ready ∧ p.faulted = false := by
  simp [State.endState, Port.ended, and_assoc]

/-- With no port to pick the block stops. -/
theorem step_of_no_enabled {s : State} (h : ∀ n, s.enabled n = false) : step s = .fault s.stopReason := by
  have hnone : s.enabledPorts = [] := List.eq_nil_iff_forall_not_mem.mpr fun n hn =>
    Bool.eq_false_iff.mp (h n) (State.mem_enabledPorts.mp hn)
  have hpick : s.pick = none := (chooseFrom_none _ _).mpr hnone
  rw [step, hpick]

/-- Settles O19: no port is picked, and the reason of the stop asks for the end state. -/
theorem stepStopsWhereNoPortIsEnabled : Obligations.StepStopsWhereNoPortIsEnabled := by
  intro s h
  rw [step_of_no_enabled h, State.stopReason, ← State.endState_iff]
  exact ⟨fun hend => by rw [if_pos hend], fun hend => by rw [if_neg hend]⟩

/-- Where no port is enabled the run has ended, or a port is faulted: an unfaulted port with words left would give an
enabled one. -/
theorem DispatchInv.ended_or_faulted {s : State} (h : DispatchInv s) (hpc : PcWithinStream s)
    (hstop : ∀ n, s.enabled n = false) : s.endState = true ∨ ∃ p ∈ s.ports, p.faulted = true := by
  by_cases hfault : ∃ p ∈ s.ports, p.faulted = true
  · exact .inr hfault
  refine .inl (State.endState_iff.mpr fun p hp => ?_)
  have hf : p.faulted = false := Bool.of_not_eq_true fun hf => hfault ⟨p, hp, hf⟩
  have hend : p.stream.length ≤ p.pc.toNat := by
    by_contra hw
    obtain ⟨n, hn⟩ := List.mem_iff_getElem?.mp hp
    obtain ⟨m, hm⟩ := theOwnerStepsAndNothingDeadlocks.2.2 s n p h hn hf (not_le.mp hw)
    exact Bool.eq_false_iff.mp (hstop m) hm
  have hready : p.ph = .ready := by
    have noFetch : ∀ i, p.fetch s.inp ≠ .ok i := fun i hi => absurd (pc_lt_of_fetch hi) (not_lt.mpr hend)
    obtain ⟨hset, hcheck⟩ := h.phases p hp
    cases hph : p.ph with
    | ready => rfl
    | forceSet => exact absurd (hset hph).1 (noFetch _)
    | scMatch => exact absurd (hcheck (.inl hph)).1 (noFetch _)
    | scMismatch => exact absurd (hcheck (.inr hph)).1 (noFetch _)
  exact ⟨le_antisymm (hpc p hp).1 hend, hready, hf⟩

/-! ### Counting commands (R126) -/

/-- Past a command there are fewer words: it has at least one. -/
theorem length_drop_words_le (i : Instr) (w : Word) (ws : List Word) :
    ((w :: ws).drop i.format.words).length ≤ ws.length := by
  have hpos : 0 < i.format.words := by cases i <;> exact Nat.succ_pos _
  rw [List.length_drop, List.length_cons]
  omega

/-- The count does not depend on its bound. -/
theorem countCommands_of_length_le (inp : Inputs) (n : Nat) : ∀ (m : Nat) (ws : List Word),
    ws.length ≤ n → ws.length ≤ m → countCommands inp n ws = countCommands inp m ws := by
  induction n with
  | zero =>
    intro m ws hn hm
    obtain rfl := List.length_eq_zero_iff.mp (Nat.le_zero.mp hn)
    cases m <;> rfl
  | succ n ih =>
    intro m ws hn hm
    match ws, m with
    | [], 0 => rfl
    | [], m + 1 => rfl
    | w :: ws, m + 1 =>
      rw [countCommands, countCommands]
      cases decode inp (w :: ws) with
      | error e => rfl
      | ok i =>
        have hshort := length_drop_words_le i w ws
        have hrest := ih m ((w :: ws).drop i.format.words) (hshort.trans (Nat.le_of_succ_le_succ hn))
          (hshort.trans (Nat.le_of_succ_le_succ hm))
        exact congrArg (1 + ·) hrest

/-- A decoded command counts one, and the words after it count on. -/
theorem commandCount_of_decode {inp : Inputs} {ws : List Word} {i : Instr} (h : decode inp ws = .ok i) :
    commandCount inp ws = 1 + commandCount inp (ws.drop i.format.words) := by
  cases ws with
  | nil => cases h
  | cons w ws =>
    rw [commandCount, commandCount, List.length_cons, countCommands, h]
    exact congrArg (1 + ·) (countCommands_of_length_le inp _ _ _ (length_drop_words_le i w ws) le_rfl)

theorem commandCount_pos (inp : Inputs) {ws : List Word} (h : ws ≠ []) : 0 < commandCount inp ws := by
  cases ws with
  | nil => exact absurd rfl h
  | cons w ws =>
    rw [commandCount, List.length_cons, countCommands]
    cases decode inp (w :: ws) with
    | ok i => exact Nat.lt_add_right _ Nat.one_pos
    | error e => exact Nat.one_pos

/-! ### The steps a port has left -/

/-- The steps initialization has left: the claim step and the decide step. -/
def InitGuard.stepsLeft : InitGuard → Nat
  | .none => 2
  | .busy => 1
  | .done => 0

/-- The steps a port has taken of the command it is in. -/
def Phase.stepsTaken : Phase → Nat
  | .ready => 0
  | .forceSet => 1
  | .scMatch => 1
  | .scMismatch => 1

theorem Phase.stepsTaken_le_one (ph : Phase) : ph.stepsTaken ≤ 1 := by
  cases ph <;> decide

theorem Phase.stepsTaken_pos {ph : Phase} (h : ph ≠ .ready) : 0 < ph.stepsTaken := by
  cases ph with
  | ready => exact absurd rfl h
  | _ => exact Nat.one_pos

/-- At most so many steps a port takes besides claim and decide steps: two for each command left, and none once it is
faulted. -/
def Port.stepsLeft (inp : Inputs) (p : Port) : Nat :=
  if p.faulted then 0 else 2 * commandCount inp (p.stream.drop p.pc.toNat) - p.ph.stepsTaken

theorem Port.stepsLeft_of_faulted (inp : Inputs) {p : Port} (h : p.faulted = true) : p.stepsLeft inp = 0 :=
  if_pos h

theorem Port.stepsLeft_of_unfaulted (inp : Inputs) {p : Port} (h : p.faulted = false) :
    p.stepsLeft inp = 2 * commandCount inp (p.stream.drop p.pc.toNat) - p.ph.stepsTaken :=
  if_neg (Bool.eq_false_iff.mp h)

theorem Port.stepsLeft_reset (inp : Inputs) (ws : List Word) :
    (Port.reset ws).stepsLeft inp = 2 * commandCount inp ws := rfl

/-- A port with a word to fetch and no fault has a step left. -/
theorem Port.stepsLeft_pos (inp : Inputs) {p : Port} (hf : p.faulted = false) (hw : p.pc.toNat < p.stream.length) :
    0 < p.stepsLeft inp := by
  have hcount := commandCount_pos inp (mt List.drop_eq_nil_iff.mp (not_le.mpr hw))
  have htaken := p.ph.stepsTaken_le_one
  rw [Port.stepsLeft_of_unfaulted inp hf]
  omega

/-- A step of command `i` takes a port on from `p` to `q`: it faults, completes the command, or takes the first of its two
body steps. -/
def Port.movesOn (i : Instr) (p q : Port) : Prop :=
  q.faulted = true ∨ q.faulted = false ∧ q.stream = p.stream ∧
    (q.pc = p.pc + BitVec.ofNat 32 i.format.words ∨ q.pc = p.pc ∧ p.ph = .ready ∧ q.ph ≠ .ready)

theorem Port.movesOn.stepsLeft_lt {inp : Inputs} {i : Instr} {p q : Port} (h : Port.movesOn i p q)
    (hf : p.faulted = false) (hi : p.fetch inp = .ok i) (hpc : p.pcWithinStream) :
    q.stepsLeft inp < p.stepsLeft inp := by
  have htaken := p.ph.stepsTaken_le_one
  have hcount := commandCount_of_decode hi
  rcases h with hfault | ⟨hq, hstream, hdone | ⟨hstay, hready, hbody⟩⟩
  · rw [Port.stepsLeft_of_faulted inp hfault]
    exact Port.stepsLeft_pos inp hf (pc_lt_of_fetch hi)
  · have hend : q.pc.toNat = p.pc.toNat + i.format.words := by
      have hle := pc_add_words_le_of_fetch hi
      have hlt := hpc.2
      rw [hdone, BitVec.toNat_add, BitVec.toNat_ofNat]
      omega
    rw [Port.stepsLeft_of_unfaulted inp hf, Port.stepsLeft_of_unfaulted inp hq, hstream, hend, ← List.drop_drop]
    omega
  · have hpos := Phase.stepsTaken_pos hbody
    rw [Port.stepsLeft_of_unfaulted inp hf, Port.stepsLeft_of_unfaulted inp hq, hstream, hstay, hready,
      Phase.stepsTaken]
    omega

/-! ### Every step takes one of the steps left -/

/-- A command at an unfaulted port is a step of initialization or moves the port on. -/
theorem Effect.movesOn {s t : State} {i : Instr} (h : Effect s i t) (hp : s.ports[s.cur]? = some s.me)
    (hf : s.me.faulted = false) : ∃ q, t.ports[s.cur]? = some q ∧
      (t.init.stepsLeft < s.init.stepsLeft ∧ q = s.me ∨ t.init = s.init ∧ Port.movesOn i s.me q) := by
  have completes : ∀ {q : Port}, q.faulted = s.me.faulted → q.stream = s.me.stream →
      q.pc = s.me.pc + BitVec.ofNat 32 i.format.words → Port.movesOn i s.me q :=
    fun hq hstream hpc => .inr ⟨hq.trans hf, hstream, .inl hpc⟩
  cases h with
  | fault => exact ⟨_, State.getElem?_setMe hp _, .inr ⟨rfl, .inl rfl⟩⟩
  | claim _ _ _ hn => exact ⟨_, hp, .inl ⟨by rw [hn]; exact Nat.one_lt_two, rfl⟩⟩
  | decide _ _ _ hb => exact ⟨_, hp, .inl ⟨by rw [hb]; exact Nat.one_pos, rfl⟩⟩
  | accumulator _ _ hi =>
    exact ⟨_, State.getElem?_setMe hp _, .inr ⟨rfl, completes rfl rfl (pc_of_oneWord hi (by decide) _)⟩⟩
  | result _ _ hi =>
    exact ⟨_, State.getElem?_setMe hp _, .inr ⟨rfl, completes rfl rfl (pc_of_oneWord hi (by decide) _)⟩⟩
  | chunk _ _ _ q hi hq =>
    obtain ⟨c, a, len, bs, -, -, -, -, -, rfl⟩ := Port.foldChunk_ok.mp hq
    exact ⟨_, State.getElem?_setMe hp _, .inr ⟨rfl, completes rfl rfl (pc_of_oneWord hi (by decide) _)⟩⟩
  | forceFlag hready =>
    exact ⟨_, State.getElem?_setMe hp _, .inr ⟨rfl, .inr ⟨hf, rfl, .inr ⟨rfl, hready, nofun⟩⟩⟩⟩
  | compare ph _ hready _ hph =>
    refine ⟨_, State.getElem?_setMe hp _, .inr ⟨rfl, .inr ⟨hf, rfl, .inr ⟨rfl, hready, ?_⟩⟩⟩⟩
    rcases hph with rfl | rfl <;> exact nofun
  | forceBody => exact ⟨_, State.getElem?_forceSoftware_setMe hp _, .inr ⟨rfl, completes rfl rfl rfl⟩⟩
  | checkFail => exact ⟨_, State.getElem?_forceSoftware_setMe hp _, .inr ⟨rfl, completes rfl rfl rfl⟩⟩
  | _ => exact ⟨_, State.getElem?_setMe hp _, .inr ⟨rfl, completes rfl rfl rfl⟩⟩

/-- A port's step takes one of the steps that it and initialization have left together. -/
theorem PortStep.exists_port_stepsLeft_lt {s t : State} (h : PortStep s t) (hpc : s.me.pcWithinStream) :
    ∃ q, t.ports[s.cur]? = some q ∧
      t.init.stepsLeft + q.stepsLeft s.inp < s.init.stepsLeft + s.me.stepsLeft s.inp := by
  rcases h.result with ⟨i, hi, he⟩ | ⟨-, rfl⟩
  · obtain ⟨q, hq, ⟨hinit, rfl⟩ | ⟨hinit, hmove⟩⟩ := he.movesOn h.present h.unfaulted
    · exact ⟨_, hq, Nat.add_lt_add_right hinit _⟩
    · rw [hinit]
      exact ⟨q, hq, Nat.add_lt_add_left (hmove.stepsLeft_lt h.unfaulted hi hpc) _⟩
  · refine ⟨_, State.getElem?_setMe h.present _, Nat.add_lt_add_left ?_ _⟩
    rw [Port.stepsLeft_of_faulted s.inp (Port.raise_faulted _ _)]
    exact Port.stepsLeft_pos s.inp h.unfaulted h.hasWord

/-- What looks at no STALE changes by a step at the executing port alone. -/
theorem PortStep.map_ports {α : Type} {f : Port → α} {s t : State} {q : Port} (h : PortStep s t)
    (hstale : ∀ p, f { p with stale := true } = f p) (hq : t.ports[s.cur]? = some q) :
    t.ports.map f = (s.ports.map f).set s.cur (f q) := by
  obtain ⟨hlt, -⟩ := List.getElem?_eq_some_iff.mp h.present
  refine List.ext_getElem? fun n => ?_
  rw [List.getElem?_map]
  by_cases hn : n = s.cur
  · subst hn
    rw [hq, List.getElem?_set_self (by rwa [List.length_map]), Option.map_some]
  · rw [List.getElem?_set_ne (Ne.symm hn), List.getElem?_map]
    rcases h.other_port hn with ho | ho <;> rw [ho]
    rw [Option.map_map]
    exact congrArg (Option.map · _) (funext hstale)

/-- Replacing one number of a list changes the sum by the difference. -/
theorem sum_set_add {l : List Nat} {a : Nat} (b : Nat) :
    ∀ {n : Nat}, l[n]? = some a → (l.set n b).sum + a = l.sum + b := by
  induction l with
  | nil => intro n h; cases h
  | cons x xs ih =>
    intro n h
    cases n with
    | zero =>
      obtain rfl := Option.some.inj h
      rw [List.set_cons_zero, List.sum_cons, List.sum_cons]
      omega
    | succ n =>
      have hrest := ih h
      rw [List.set_cons_succ, List.sum_cons, List.sum_cons]
      omega

/-- At most so many steps a run takes: those of initialization and those of the ports. -/
def State.stepsLeft (s : State) : Nat := s.init.stepsLeft + (s.ports.map (Port.stepsLeft s.inp)).sum

/-- At reset they are the bound of R126. -/
theorem State.stepsLeft_launch (inp : Inputs) (m : Memory) (streams : List (List Word)) :
    (State.launch inp m streams).stepsLeft = stepBound inp streams := by
  have hports : (State.launch inp m streams).ports = streams.map Port.reset := rfl
  rw [State.stepsLeft, hports, List.map_map]
  rfl

theorem PortStep.stepsLeft_lt {s t : State} (h : PortStep s t) (hpc : s.me.pcWithinStream) :
    t.stepsLeft < s.stepsLeft := by
  obtain ⟨q, hq, hlt⟩ := h.exists_port_stepsLeft_lt hpc
  have hold : (s.ports.map (Port.stepsLeft s.inp))[s.cur]? = some (s.me.stepsLeft s.inp) := by
    rw [List.getElem?_map, h.present, Option.map_some]
  have hsum := sum_set_add (q.stepsLeft s.inp) hold
  rw [State.stepsLeft, State.stepsLeft, h.inp_eq, h.map_ports (fun _ => rfl) hq]
  omega

/-- Every step of the block takes one of the steps left. -/
theorem stepsLeft_lt_of_step {s t : State} (hpc : PcWithinStream s) (h : step s = .next t) :
    t.stepsLeft < s.stepsLeft := by
  obtain ⟨n, -, hstep⟩ := portStep_of_step h
  exact hstep.stepsLeft_lt (hpc _ (List.mem_of_getElem? hstep.present))

/-! ### Runs (R126) -/

theorem run_succ_of_step {M : Host.Core} {s t : M.State} (h : M.step s = .next t) (k : Nat) :
    M.run (k + 1) s = M.run k t := by
  rw [Host.Core.run, h]

/-- A run stops within the steps left. -/
theorem DispatchInv.exists_run {s : State} (h : DispatchInv s) (hpc : PcWithinStream s) :
    ∃ (k : Nat) (t : State), k ≤ s.stepsLeft ∧ Host.Core.run Sys2Proof.core k s = .next t ∧
      DispatchInv t ∧ PcWithinStream t ∧ ∀ n, t.enabled n = false := by
  induction hleft : s.stepsLeft using Nat.strong_induction_on generalizing s with
  | _ left ih =>
    by_cases hstop : ∃ n, s.enabled n = true
    · obtain ⟨u, hu⟩ := everyEnabledStepHasANextState s h hstop
      have hlt : u.stepsLeft < left := hleft ▸ stepsLeft_lt_of_step hpc hu
      obtain ⟨k, t, hk, hrun, hend⟩ := ih _ hlt (stepKeepsTheDispatchInvariant s u h hu)
        (stepKeepsPcWithinTheStream s u hpc hu) rfl
      exact ⟨k + 1, t, by omega, (run_succ_of_step (M := Sys2Proof.core) hu k).trans hrun, hend⟩
    · exact ⟨0, s, Nat.zero_le _, rfl, h, hpc, fun n => Bool.of_not_eq_true fun hn => hstop ⟨n, hn⟩⟩

/-- The tapes of scheduling and stale choices are no part of the invariant. -/
theorem DispatchInv.withTapes {s : State} (h : DispatchInv s) (sched : List Nat) (draws : List Engine) :
    DispatchInv { s with sched := sched, draws := draws } where
  portCount := h.portCount
  capNeedsPath := h.capNeedsPath
  undecidedIff := h.undecidedIff
  hwCapable := h.hwCapable
  owner := h.owner
  ownerIdle := h.ownerIdle
  phases := h.phases
  stale := h.stale

/-- Settles O22: reset leaves as many steps as R126 allows, each step takes one, and where none is enabled the run has
ended or a port is faulted. -/
theorem runsTakeAtMostTwoStepsACommandAndTwo : Obligations.RunsTakeAtMostTwoStepsACommandAndTwo := by
  intro inp m streams sched draws hcap hcount hfit
  obtain ⟨hinv, -, hpc, -⟩ := invariantsHoldAtReset inp m streams hcap hcount hfit
  obtain ⟨k, t, hk, hrun, hinv', hpc', hstop⟩ := (hinv.withTapes sched draws).exists_run hpc
  exact ⟨k, t, hk.trans (State.stepsLeft_launch inp m streams).le, hrun, hstop, hinv'.ended_or_faulted hpc' hstop⟩

end Sys2Proof.Machine
end
